-- ==== Sys2Proof/Word.lean ====
section
/-! DEFINITION. The widths of the hardware's values and the words its operations and frames are written in. -/

namespace Sys2Proof

/-- `DATA_W` = 32: `data_low`, `data_high`, `code` (00_scope.md R9). -/
abbrev Data := BitVec 32

/-- `TIME_W` = 64, microseconds: `last_pulse_time`, `ts`, `now` (00_scope.md R9). -/
abbrev Time := BitVec 64

/-- `FT_W` = 8, two's complement: `frame_type` (00_scope.md R10). -/
abbrev FrameType := BitVec 8

/-- Half of a KEY8 frame, and all of a KEY4 frame (30_encoding.md R73, R74). -/
abbrev Nibble := BitVec 4

/-- The strobe vector, `rst` at bit 3, `poll` at bit 2, `pulse_b` at bit 1, `pulse_a` at bit 0 (30_encoding.md R92). -/
abbrev Strobes := BitVec 4

/-- The two lines of one device (00_scope.md R2). -/
inductive Line where
  | a
  | b
  deriving DecidableEq, Repr

/-- The registers a caller can read by name (30_encoding.md R83, R91). -/
inductive Accessor where
  | code
  | frameType
  deriving DecidableEq, Repr

/-- Everything the operation and format table gives an encoding (30_encoding.md R94). -/
inductive CodeWord where
  /-- one clock edge's strobe vector with the two time buses (30_encoding.md R90, R92) -/
  | strobes (v : Strobes) (ts now : Time)
  /-- a read of an output register, which has no strobe (30_encoding.md R91) -/
  | accessor (r : Accessor)
  /-- a received frame, first bit received on the left, as the poll at time `now` finds it (30_encoding.md R70, R94) -/
  | frame (bits : List Bool) (now : Time)
  deriving DecidableEq, Repr

end Sys2Proof
end

