-- ==== Sys2Proof/Config.lean ====
section
/-! DEFINITION. The constants the hardware fixes, and the two values the spec leaves open (no body: nothing evaluates them). -/

namespace Sys2Proof

/-- What the interrupt subsystem does with an edge that occurs while ingestion is suspended: `SUSPENDED_EDGE_POLICY` (92_eei_decisions.md D7). -/
inductive SuspendedEdgePolicy where
  /-- the pulse event is delivered after the poll, with its own timestamp -/
  | defer
  /-- no pulse event is ever delivered for that edge -/
  | drop
  deriving DecidableEq, Repr, Inhabited

namespace Config

/-- `IDLE_THRESHOLD_US` (00_scope.md R9, 92_eei_decisions.md D22). -/
abbrev idleThresholdUs : Nat := 25000

/-- `CARRY_START`: a pulse carries into `data_high` when the incremented `bit_count` exceeds it (00_scope.md R9, 40_accumulate.md R100). -/
abbrev carryStart : Nat := 31

/-- `data_high` is corrected when `bit_count` exceeds it (41_quiet_and_length.md R122). -/
abbrev correctionStart : Nat := 32

/-- `LEGAL_LENGTHS` (00_scope.md R9, 41_quiet_and_length.md R123). -/
abbrev legalLengths : List Nat := [4, 8, 24, 26, 32, 34]

/-- `BITCOUNT_SAT`, the default ceiling of a realisation's saturating `bit_count`, any value of at least 35 (00_scope.md R10). Read by the realisation's counter only. -/
abbrev bitcountSat : Nat := 63

/-- FREE VALUE, log entry 4. At the `n`-th edge that strobes POLL and one pulse together: is the poll taken first (30_encoding.md R92, 92_eei_decisions.md D21)? -/
opaque pollFirst : Nat → Bool

/-- OPEN PARAMETER, log entry 5. `SUSPENDED_EDGE_POLICY` (92_eei_decisions.md D7). -/
opaque suspendedEdgePolicy : SuspendedEdgePolicy

end Config

end Sys2Proof
end

