-- ==== Sys2Proof/Syntax.lean ====
section
/-! DEFINITION. The thirteen rows of the operation and format table: six operations, six frame formats, NOISE. -/

namespace Sys2Proof

/-- One constructor per row of the table (30_encoding.md R83, R94).
An operation's operands are its times. A frame's operands are its fields, in order of reception (30_encoding.md R73 to R78),
and the time `now` of the poll that decodes it, which its rule may write to `last_pulse_time` (42_format_decode.md R141). -/
inductive Instr where
  /-- INIT: device initialisation (43_controller.md R174) -/
  | init
  /-- PULSE_A: a pulse on line A (40_accumulate.md R101) -/
  | pulseA (ts : Time)
  /-- PULSE_B: a pulse on line B (40_accumulate.md R102) -/
  | pulseB (ts : Time)
  /-- POLL (43_controller.md R170) -/
  | poll (now : Time)
  /-- GET_CODE (43_controller.md R176) -/
  | getCode
  /-- GET_TYPE (43_controller.md R177) -/
  | getType
  /-- KEY4: key nibble `K` (30_encoding.md R73) -/
  | key4 (k : Nibble) (now : Time)
  /-- KEY8: check nibble `C`, key nibble `K` (30_encoding.md R74) -/
  | key8 (c k : Nibble) (now : Time)
  /-- CARD24: `ID[23:0]` (30_encoding.md R75) -/
  | card24 (id : BitVec 24) (now : Time)
  /-- CARD26: leading parity `PL`, `ID[23:0]`, trailing parity `PT` (30_encoding.md R76) -/
  | card26 (pl : Bool) (id : BitVec 24) (pt : Bool) (now : Time)
  /-- CARD32: first bit `X`, which is lost, and `ID[30:0]` (30_encoding.md R77) -/
  | card32 (x : Bool) (id : BitVec 31) (now : Time)
  /-- CARD34: leading parity `PL`, `ID[31:0]`, trailing parity `PT` (30_encoding.md R78) -/
  | card34 (pl : Bool) (id : BitVec 32) (pt : Bool) (now : Time)
  /-- NOISE: a run of `length` pulses that is no legal frame (30_encoding.md R81) -/
  | noise (length : Nat) (now : Time)
  deriving DecidableEq, Repr

end Sys2Proof
end

