-- ==== Sys2Proof/WellFormed.lean ====
section
/-! DEFINITION. Which terms of the syntax are instructions of the hardware. -/

namespace Sys2Proof

/-- The frame-length test: membership in `{4, 8, 24, 26, 32, 34}` (41_quiet_and_length.md R123). -/
def isLegalLength (n : Nat) : Bool := Config.legalLengths.contains n

/-- Every field's range is its type's. The one check left: NOISE stands for an illegal length only (30_encoding.md R81). -/
def Instr.wellFormed : Instr → Bool
  | .init => true
  | .pulseA _ => true
  | .pulseB _ => true
  | .poll _ => true
  | .getCode => true
  | .getType => true
  | .key4 _ _ => true
  | .key8 _ _ _ => true
  | .card24 _ _ => true
  | .card26 _ _ _ _ => true
  | .card32 _ _ _ => true
  | .card34 _ _ _ _ => true
  | .noise length _ => !isLegalLength length

end Sys2Proof
end

