-- ==== Sys2Proof/Decode.lean ====
section
/-! DEFINITION. From code words to instructions, total, with the rejections by name; then the encoder. -/

namespace Sys2Proof

/-! ### Frame values -/

/-- The frame value `V`: the first bit received is the most significant (00_scope.md R14). -/
def frameValue (bits : List Bool) : Nat := bits.foldl (fun v b => 2 * v + b.toNat) 0

/-- The `n` low bits of `v`, most significant first: the order of reception (00_scope.md R14). -/
def bitsOf : Nat → Nat → List Bool
  | 0, _ => []
  | n + 1, v => v.testBit n :: bitsOf n v

/-- `v[lo + w - 1 : lo]` (00_scope.md R11). -/
def field (w lo v : Nat) : BitVec w := BitVec.ofNat w (v >>> lo)

/-- The bit of a pulse: 0 on line A, 1 on line B (00_scope.md R2, R14). -/
def Line.bit : Line → Bool
  | .a => false
  | .b => true

/-! ### Decoding -/

/-- Why a code word is no instruction. -/
inductive Reject where
  /-- both lines strobed in one edge, `0011` or `0111` (30_encoding.md R92, 92_eei_decisions.md D6) -/
  | bothLines
  deriving DecidableEq, Repr

/-- What a code word says. -/
inductive Decoded where
  /-- one instruction -/
  | instr (i : Instr)
  /-- `0000`: no event (30_encoding.md R92) -/
  | idle
  /-- `0101` or `0110`: POLL and one pulse, serialised in either order (30_encoding.md R92) -/
  | coincident (now : Time) (line : Line) (ts : Time)
  /-- no step -/
  | rejected (r : Reject)
  deriving DecidableEq, Repr

/-- `on_line_A` and `on_line_B` (30_encoding.md R84). -/
def pulseOn : Line → Time → Instr
  | .a, ts => .pulseA ts
  | .b, ts => .pulseB ts

/-- The strobe table, in the order `rst`, `poll`, `pulse_b`, `pulse_a` (30_encoding.md R92).
`ts` is read with a pulse strobe and `now` with the poll strobe only (30_encoding.md R90). -/
def decodeStrobes (v : Strobes) (ts now : Time) : Decoded :=
  match v.getLsbD 3, v.getLsbD 2, v.getLsbD 1, v.getLsbD 0 with
  | true, _, _, _ => .instr .init
  | false, false, false, false => .idle
  | false, false, false, true => .instr (.pulseA ts)
  | false, false, true, false => .instr (.pulseB ts)
  | false, true, false, false => .instr (.poll now)
  | false, true, false, true => .coincident now .a ts
  | false, true, true, false => .coincident now .b ts
  | false, false, true, true => .rejected .bothLines
  | false, true, true, true => .rejected .bothLines

/-- The frame rows: the length selects the format, the fields stand at their positions of `V` (30_encoding.md R72 to R78, R94). -/
def decodeFrame (bits : List Bool) (now : Time) : Instr :=
  let n := bits.length
  let v := frameValue bits
  if n = 4 then .key4 (field 4 0 v) now
  else if n = 8 then .key8 (field 4 4 v) (field 4 0 v) now
  else if n = 24 then .card24 (field 24 0 v) now
  else if n = 26 then .card26 (v.testBit 25) (field 24 1 v) (v.testBit 0) now
  else if n = 32 then .card32 (v.testBit 31) (field 31 0 v) now
  else if n = 34 then .card34 (v.testBit 33) (field 32 1 v) (v.testBit 0) now
  else .noise n now

/-- The decoder of every code word. -/
def decode : CodeWord → Decoded
  | .strobes v ts now => decodeStrobes v ts now
  | .accessor .code => .instr .getCode
  | .accessor .frameType => .instr .getType
  | .frame bits now => .instr (decodeFrame bits now)

/-! ### Encoding -/

/-- `KKKK` (30_encoding.md R73). -/
def key4Bits (k : Nibble) : List Bool := bitsOf 4 k.toNat

/-- `CCCCKKKK` (30_encoding.md R74). -/
def key8Bits (c k : Nibble) : List Bool := bitsOf 4 c.toNat ++ bitsOf 4 k.toNat

/-- `I` 24 times (30_encoding.md R75). -/
def card24Bits (id : BitVec 24) : List Bool := bitsOf 24 id.toNat

/-- `P`, `I` 24 times, `Q` (30_encoding.md R76). -/
def card26Bits (pl : Bool) (id : BitVec 24) (pt : Bool) : List Bool := pl :: bitsOf 24 id.toNat ++ [pt]

/-- `X`, `I` 31 times (30_encoding.md R77). -/
def card32Bits (x : Bool) (id : BitVec 31) : List Bool := x :: bitsOf 31 id.toNat

/-- `P`, `I` 32 times, `Q` (30_encoding.md R78). -/
def card34Bits (pl : Bool) (id : BitVec 32) (pt : Bool) : List Bool := pl :: bitsOf 32 id.toNat ++ [pt]

/-- NOISE has no field, so its bits say the length and nothing else: that many zeros (30_encoding.md R94). -/
def noiseBits (length : Nat) : List Bool := List.replicate length false

/-- The code word of an instruction; a bus the operation does not read is zero (30_encoding.md R90, R92, R94). -/
def encode : Instr → CodeWord
  | .init => .strobes 0b1000 0 0
  | .pulseA ts => .strobes 0b0001 ts 0
  | .pulseB ts => .strobes 0b0010 ts 0
  | .poll now => .strobes 0b0100 0 now
  | .getCode => .accessor .code
  | .getType => .accessor .frameType
  | .key4 k now => .frame (key4Bits k) now
  | .key8 c k now => .frame (key8Bits c k) now
  | .card24 id now => .frame (card24Bits id) now
  | .card26 pl id pt now => .frame (card26Bits pl id pt) now
  | .card32 x id now => .frame (card32Bits x id) now
  | .card34 pl id pt now => .frame (card34Bits pl id pt) now
  | .noise length now => .frame (noiseBits length) now

/-! ### The table's own numbering -/

/-- The code word of `nbits` bits `w` of the table, operand buses zero. DESIGN CHOICE, log entry 9: one byte below 16 is a strobe
vector and any other byte a KEY8 frame; five bytes below `2^34` are a 34-bit frame; every other width is a frame of that many bits. -/
def tableWord (nbits w : Nat) : CodeWord :=
  if nbits = 8 ∧ w < 16 then .strobes (BitVec.ofNat 4 w) 0 0
  else if nbits = 40 ∧ w < 2 ^ 34 then .frame (bitsOf 34 w) 0
  else .frame (bitsOf nbits w) 0

/-- The instruction the decoder reads from the table's word. -/
def decodeTableWord (nbits w : Nat) : Option Instr :=
  match decode (tableWord nbits w) with
  | .instr i => some i
  | .idle => none
  | .coincident _ _ _ => none
  | .rejected _ => none

end Sys2Proof
end

