-- ==== Sys2Proof/Machine/State.lean ====
section
/-! DEFINITION. The machine's state as plain data, its reset value, and the reasons it can stop. -/

namespace Sys2Proof.Machine

/-- The block's whole storage: exactly six fields (10_state.md R20). -/
structure DeviceState where
  /-- pulses since the last clear, an unbounded natural number (10_state.md R21) -/
  bit_count : Nat
  /-- shift buffer (10_state.md R22) -/
  data_low : Data
  /-- overflow buffer (10_state.md R23) -/
  data_high : Data
  /-- the idle timer's reference (10_state.md R24, 90_conflicts.md C7) -/
  last_pulse_time : Time
  /-- last successfully decoded value (10_state.md R25) -/
  code : Data
  /-- length of the last KEY8 or successfully decoded frame, 0 for none yet (10_state.md R26, 90_conflicts.md C1) -/
  frame_type : FrameType
  deriving DecidableEq, Repr

/-- All fields zero (10_state.md R33). -/
def DeviceState.zero : DeviceState :=
  { bit_count := 0, data_low := 0, data_high := 0, last_pulse_time := 0, code := 0, frame_type := 0 }

/-- The return value of an event (60_exceptions.md R190). The model's own, log entry 3: it is the answer of one step and no more, since no
rule reads it and every step overwrites it (10_state.md R31). -/
inductive Ret where
  /-- INIT and the pulses return nothing (40_accumulate.md R100), and so does a step without an event -/
  | nothing
  /-- what POLL returned (43_controller.md R172) -/
  | poll (ok : Bool)
  /-- what GET_CODE returned (43_controller.md R176) -/
  | code (v : Data)
  /-- what GET_TYPE returned, a signed integer (43_controller.md R177) -/
  | type (v : Int)
  deriving DecidableEq, Repr

/-- What the host does next (70_reset_and_hazards.md R224, R225). The model's own, log entry 2. -/
inductive Input where
  /-- one clock edge: the strobe vector and the two time buses (30_encoding.md R90, R92) -/
  | edge (v : Strobes) (ts now : Time)
  /-- a caller reads an accessor (30_encoding.md R91) -/
  | read (r : Accessor)
  /-- a poll that takes time, and the edges that occur while it suspends ingestion, oldest first (70_reset_and_hazards.md R232) -/
  | slowPoll (now : Time) (edges : List (Line × Time))
  /-- registration of a line handler failed (43_controller.md R175) -/
  | constructionFailed
  deriving DecidableEq, Repr

/-- The machine. -/
structure State where
  /-- does the DeviceState exist, that is, has INIT happened (70_reset_and_hazards.md R221, R224 H-1) -/
  initialised : Bool
  /-- the block's registers -/
  dev : DeviceState
  /-- what the last step returned (model's own, log entry 3) -/
  ret : Ret
  /-- the events still to happen, oldest first: the total order of 20_memory.md R59 (model's own, log entry 2) -/
  inputs : List Input
  /-- free choices used up (model's own, log entry 4) -/
  draws : Nat
  deriving DecidableEq, Repr

/-- No operation of the block faults, traps or throws (60_exceptions.md R190): there is no fault, so no constructor. -/
inductive Fault where
  deriving DecidableEq, Repr

/-- Breaches of the host's duties (70_reset_and_hazards.md R224), and the host's marker for an instruction without a meaning. -/
inductive Refusal where
  /-- raised by an arm of `exec` that has no meaning yet; safe -/
  | notModelled (mnemonic : String)
  /-- raised by every operation but INIT when no INIT has happened (70_reset_and_hazards.md R221, H-1); safe: a run that does so satisfies no claim -/
  | beforeInit
  /-- raised by the fetch of an edge that strobes both lines (30_encoding.md R92, H-3); safe: the spec gives it no step -/
  | bothLines
  /-- raised by the fetch of a failed construction (43_controller.md R175): no device, no event; safe -/
  | constructionFailed
  deriving DecidableEq, Repr

/-- Right after reset, that is, after INIT (70_reset_and_hazards.md R220): every field of the record zero, the device existing, no event pending. -/
def State.reset : State :=
  { initialised := true, dev := DeviceState.zero, ret := .nothing, inputs := [], draws := 0 }

end Sys2Proof.Machine
end

