-- ==== Sys2Proof/Machine/Flags.lean ====
section
/-! DEFINITION. The tests that play the part of flags, and the FrameDecoder's result. Nothing here is stored (10_state.md R31). -/

namespace Sys2Proof.Machine

/-- The result of the FrameDecoder (41_quiet_and_length.md R120, 60_exceptions.md R191 to R194). -/
inductive DecodeResult where
  | notReady
  | noise
  | invalid
  | success (code : Data) (frame_type : FrameType)
  deriving DecidableEq, Repr

/-- `elapsed <- (now - last_pulse_time) mod 2^64` (41_quiet_and_length.md R121, 00_scope.md R12). -/
def elapsed (now last : Time) : Nat := (now - last).toNat

/-- Step 1: the quiet period has not elapsed; the comparison is unsigned and 25000 itself is not quiet (41_quiet_and_length.md R121). -/
def notQuiet (now last : Time) : Bool := decide (elapsed now last ≤ Config.idleThresholdUs)

/-- The KEY8 check `low_nibble == (~high_nibble & 0xF)` (42_format_decode.md R141). -/
def complementOk (high_nibble low_nibble : Nibble) : Bool := low_nibble == ~~~high_nibble

/-- The poll's Boolean: true only on Success (43_controller.md R172). -/
def DecodeResult.isSuccess : DecodeResult → Bool
  | .notReady => false
  | .noise => false
  | .invalid => false
  | .success _ _ => true

/-- The result on a realisation's internal wires (30_encoding.md R93). -/
def DecodeResult.wire : DecodeResult → BitVec 2
  | .notReady => 0b00
  | .noise => 0b01
  | .invalid => 0b10
  | .success _ _ => 0b11

end Sys2Proof.Machine
end

