-- ==== Sys2Proof/Machine/Operands.lean ====
section
/-! DEFINITION. How a code is taken out of the corrected buffers. -/

namespace Sys2Proof.Machine

/-- `(data_low >> 4) & 0xF`, the check nibble `C` (42_format_decode.md R141). -/
def highNibble (low : Data) : Nibble := ((low >>> 4) &&& 0xF).setWidth 4

/-- `data_low & 0xF`, the key nibble `K` (42_format_decode.md R141, R144). -/
def lowNibble (low : Data) : Nibble := (low &&& 0xF).setWidth 4

/-- `translate(nibble)`, zero-extended to 32 bits (42_format_decode.md R143, 92_eei_decisions.md D17). -/
def translateKey (k : Nibble) : Data :=
  if k = 0x0B then 0x0D
  else if k = 0x0A then 0x1B
  else k.setWidth 32

/-- `extract_card_id(high, low, bitlength)` on the corrected buffers (42_format_decode.md R145 to R149). -/
def extractCardId (high low : Data) (bitlength : Nat) : Data :=
  if bitlength = 26 then (low &&& 0x1FFFFFE) >>> 1
  else if bitlength = 34 then ((high &&& 0x3) <<< 30) ||| (low >>> 1)
  else low

end Sys2Proof.Machine
end

