-- ==== Sys2Proof/Machine/Ops.lean ====
section
/-! DEFINITION. The named operations over the registers, shared by the meanings.

There is no memory (20_memory.md R50), so there are no loads and stores. There is no trap (60_exceptions.md R190, R202): nothing is
saved, no mode changes, control goes nowhere, so taking an exception and returning from one have no counterpart to model. The
suspension of ingestion has no stored bit: a poll is atomic (10_state.md R34, 43_controller.md R171). -/

namespace Sys2Proof.Machine

namespace DeviceState

/-- Clear: the three accumulator fields to zero, together (00_scope.md R17, 10_state.md R27). -/
def clear (d : DeviceState) : DeviceState := { d with bit_count := 0, data_low := 0, data_high := 0 }

/-- Re-arm: `now` to `last_pulse_time` (00_scope.md R17). -/
def rearm (d : DeviceState) (now : Time) : DeviceState := { d with last_pulse_time := now }

/-- `on_pulse` with the counter's increment as a parameter: exact in the model, saturating in a realisation (40_accumulate.md R100, 00_scope.md R10). -/
def onPulseWith (inc : Nat → Nat) (d : DeviceState) (line : Line) (ts : Time) : DeviceState :=
  let bit : Data := if line.bit then 1 else 0
  let count := inc d.bit_count
  { d with
    bit_count := count
    data_high := if count > Config.carryStart then (d.data_high ||| (d.data_low >>> 31)) <<< 1 else d.data_high
    data_low := (d.data_low ||| bit) <<< 1
    last_pulse_time := ts }

/-- `on_pulse(state, line, timestamp)` (40_accumulate.md R100). -/
def onPulse (d : DeviceState) (line : Line) (ts : Time) : DeviceState := d.onPulseWith (· + 1) line ts

/-- Step 2 of decode, the lookahead correction (41_quiet_and_length.md R122). -/
def correct (d : DeviceState) : DeviceState :=
  { d with
    data_low := d.data_low >>> 1
    data_high := if d.bit_count > Config.correctionStart then d.data_high >>> 1 else d.data_high }

/-- The accumulator as the pulses `bits` leave it after a clear (40_accumulate.md R106). -/
def loadFrame (d : DeviceState) (bits : List Bool) : DeviceState :=
  { d with
    bit_count := bits.length
    data_low := BitVec.ofNat 32 (2 * (frameValue bits % 2 ^ 31))
    data_high := BitVec.ofNat 32 (2 * ((frameValue bits >>> 31) % 2 ^ 31)) }

end DeviceState

/-- Every operation but INIT needs the device to exist (70_reset_and_hazards.md R221, R224 H-1). -/
def State.withDevice (s : State) (f : State → State) : Host.Outcome State Fault Refusal :=
  if s.initialised then .next (f s) else .refused .beforeInit

/-- The end of a poll: the record `decode` leaves, and the Boolean returned to the caller (43_controller.md R170, R172). -/
def State.finishPoll (s : State) (r : DecodeResult × DeviceState) : State :=
  { s with dev := r.2, ret := .poll r.1.isSuccess }

/-- No event: nothing of the block changes (30_encoding.md R92), and nothing is returned, so that no return value is latched (10_state.md R31). -/
def State.noEvent (s : State) : State := { s with ret := .nothing }

/-- What an edge that takes two events returns: the poll's Boolean, since a pulse returns nothing (40_accumulate.md R100, 43_controller.md R172). -/
def Ret.both (first second : Ret) : Ret :=
  match first with
  | .nothing => second
  | .poll ok => .poll ok
  | .code v => .code v
  | .type v => .type v

end Sys2Proof.Machine
end

