-- ==== Sys2Proof/Machine/Accumulate.lean ====
section
/-! DEFINITION. The BitAccumulator: PULSE_A and PULSE_B. -/

namespace Sys2Proof.Machine

/-- PULSE_A: on_pulse with bit 0; nothing is returned (40_accumulate.md R101). -/
def execPulseA (ts : Time) (s : State) : Host.Outcome State Fault Refusal :=
  s.withDevice fun s => { s with dev := s.dev.onPulse .a ts, ret := .nothing }

/-- PULSE_B: on_pulse with bit 1; nothing is returned (40_accumulate.md R102). -/
def execPulseB (ts : Time) (s : State) : Host.Outcome State Fault Refusal :=
  s.withDevice fun s => { s with dev := s.dev.onPulse .b ts, ret := .nothing }

end Sys2Proof.Machine
end

