-- ==== Sys2Proof/Machine/FrameDecoder.lean ====
section
/-! DEFINITION. The FrameDecoder: the rule of each frame format on the corrected buffers, `decode`, and the meaning of each frame
row. A frame row's instruction is its rule applied to the accumulator that holds its own bits (30_encoding.md R94, log entry 10). -/

namespace Sys2Proof.Machine

/-! ### The rules, on corrected buffers -/

/-- Step 3, the Noise action (41_quiet_and_length.md R124). -/
def noiseRule (now : Time) (d : DeviceState) : DecodeResult × DeviceState := (.noise, d.clear.rearm now)

/-- KEY8: `frame_type` is written before the check, so on Invalid too (42_format_decode.md R141, 90_conflicts.md C1, C5). -/
def key8Rule (now : Time) (d : DeviceState) : DecodeResult × DeviceState :=
  let d' := { d.clear with frame_type := 8 }
  if complementOk (highNibble d.data_low) (lowNibble d.data_low) then
    let c := translateKey (lowNibble d.data_low)
    (.success c 8, { d' with code := c })
  else (.invalid, d'.rearm now)

/-- KEY4 (42_format_decode.md R144). -/
def key4Rule (d : DeviceState) : DecodeResult × DeviceState :=
  let c := translateKey (lowNibble d.data_low)
  (.success c 4, { d.clear with code := c, frame_type := 4 })

/-- The card rule (42_format_decode.md R145). -/
def cardRule (d : DeviceState) : DecodeResult × DeviceState :=
  let n := BitVec.ofNat 8 d.bit_count
  let c := extractCardId d.data_high d.data_low d.bit_count
  (.success c n, { d.clear with code := c, frame_type := n })

/-- Step 4: the branch on `bit_count`, reached with a legal length only (42_format_decode.md R140). -/
def formatRule (now : Time) (d : DeviceState) : DecodeResult × DeviceState :=
  if d.bit_count = 8 then key8Rule now d
  else if d.bit_count = 4 then key4Rule d
  else cardRule d

/-- `decode(state, now)`: quiet test, correction, length test, format (41_quiet_and_length.md R120). -/
def frameDecode (d : DeviceState) (now : Time) : DecodeResult × DeviceState :=
  if notQuiet now d.last_pulse_time then (.notReady, d)
  else if isLegalLength d.correct.bit_count then formatRule now d.correct
  else noiseRule now d.correct

/-! ### The frame rows -/

/-- KEY4 (42_format_decode.md R144). -/
def execKey4 (k : Nibble) (_now : Time) (s : State) : Host.Outcome State Fault Refusal :=
  s.withDevice fun s => s.finishPoll (key4Rule (s.dev.loadFrame (key4Bits k)).correct)

/-- KEY8 (42_format_decode.md R141). -/
def execKey8 (c k : Nibble) (now : Time) (s : State) : Host.Outcome State Fault Refusal :=
  s.withDevice fun s => s.finishPoll (key8Rule now (s.dev.loadFrame (key8Bits c k)).correct)

/-- CARD24 (42_format_decode.md R145, R146). -/
def execCard24 (id : BitVec 24) (_now : Time) (s : State) : Host.Outcome State Fault Refusal :=
  s.withDevice fun s => s.finishPoll (cardRule (s.dev.loadFrame (card24Bits id)).correct)

/-- CARD26 (42_format_decode.md R145, R147). -/
def execCard26 (pl : Bool) (id : BitVec 24) (pt : Bool) (_now : Time) (s : State) : Host.Outcome State Fault Refusal :=
  s.withDevice fun s => s.finishPoll (cardRule (s.dev.loadFrame (card26Bits pl id pt)).correct)

/-- CARD32 (42_format_decode.md R145, R148, 90_conflicts.md C6). -/
def execCard32 (x : Bool) (id : BitVec 31) (_now : Time) (s : State) : Host.Outcome State Fault Refusal :=
  s.withDevice fun s => s.finishPoll (cardRule (s.dev.loadFrame (card32Bits x id)).correct)

/-- CARD34 (42_format_decode.md R145, R149, 90_conflicts.md C3). -/
def execCard34 (pl : Bool) (id : BitVec 32) (pt : Bool) (_now : Time) (s : State) : Host.Outcome State Fault Refusal :=
  s.withDevice fun s => s.finishPoll (cardRule (s.dev.loadFrame (card34Bits pl id pt)).correct)

/-- NOISE (41_quiet_and_length.md R124). -/
def execNoise (length : Nat) (now : Time) (s : State) : Host.Outcome State Fault Refusal :=
  s.withDevice fun s => s.finishPoll (noiseRule now (s.dev.loadFrame (noiseBits length)).correct)

end Sys2Proof.Machine
end

