-- ==== Sys2Proof/Machine/Controller.lean ====
section
/-! DEFINITION. The ProtocolController: INIT, POLL, GET_CODE, GET_TYPE. -/

namespace Sys2Proof.Machine

/-- INIT: all six fields to zero; it may happen again at any time (43_controller.md R174, 92_eei_decisions.md D12). -/
def execInit (s : State) : Host.Outcome State Fault Refusal :=
  .next { s with initialised := true, dev := DeviceState.zero, ret := .nothing }

/-- POLL: decode as one atomic event; true only on Success (43_controller.md R170 to R172). -/
def execPoll (now : Time) (s : State) : Host.Outcome State Fault Refusal :=
  s.withDevice fun s => s.finishPoll (frameDecode s.dev now)

/-- GET_CODE: a pure accessor (43_controller.md R176). -/
def execGetCode (s : State) : Host.Outcome State Fault Refusal :=
  s.withDevice fun s => { s with ret := .code s.dev.code }

/-- GET_TYPE: a pure accessor, the 8-bit register sign-extended (43_controller.md R177). -/
def execGetType (s : State) : Host.Outcome State Fault Refusal :=
  s.withDevice fun s => { s with ret := .type s.dev.frame_type.toInt }

end Sys2Proof.Machine
end

