-- ==== Sys2Proof/Machine/Dispatch.lean ====
section
/-! DEFINITION. One arm per instruction. -/

namespace Sys2Proof.Machine

def exec (i : Instr) (s : State) : Host.Outcome State Fault Refusal :=
  match i with
  | .init => Sys2Proof.Machine.execInit s
  | .pulseA ts => Sys2Proof.Machine.execPulseA ts s
  | .pulseB ts => Sys2Proof.Machine.execPulseB ts s
  | .poll now => Sys2Proof.Machine.execPoll now s
  | .getCode => Sys2Proof.Machine.execGetCode s
  | .getType => Sys2Proof.Machine.execGetType s
  | .key4 k now => Sys2Proof.Machine.execKey4 k now s
  | .key8 c k now => Sys2Proof.Machine.execKey8 c k now s
  | .card24 id now => Sys2Proof.Machine.execCard24 id now s
  | .card26 pl id pt now => Sys2Proof.Machine.execCard26 pl id pt now s
  | .card32 x id now => Sys2Proof.Machine.execCard32 x id now s
  | .card34 pl id pt now => Sys2Proof.Machine.execCard34 pl id pt now s
  | .noise length now => Sys2Proof.Machine.execNoise length now s

end Sys2Proof.Machine
end

