-- ==== Sys2Proof/Machine/Fetch.lean ====
section
/-! DEFINITION. Where the next event comes from: the host's inputs in their total order (20_memory.md R59). The block fetches no
instruction (20_memory.md R64); this is the model's way of letting the host act, log entry 2. -/

namespace Sys2Proof.Machine

/-- What the next input asks for. -/
inductive Fetched where
  /-- run `i` on `s`, the input taken off -/
  | run (i : Instr) (s : State)
  /-- run `first` and then `second` on `s`, both in this one edge (30_encoding.md R92) -/
  | runTwo (first second : Instr) (s : State)
  /-- no event -/
  | idle (s : State)
  /-- the host broke its contract -/
  | stop (r : Refusal)
  deriving DecidableEq, Repr

/-- The strobe vector of a pulse alone (30_encoding.md R92). -/
def strobesOf : Line → Strobes
  | .a => 0b0001
  | .b => 0b0010

/-- The edges that reach the block after a poll of non-zero length, each an edge of its own (92_eei_decisions.md D7). -/
def deferredEdges (edges : List (Line × Time)) : List Input :=
  match Config.suspendedEdgePolicy with
  | .defer => edges.map fun e => .edge (strobesOf e.1) e.2 0
  | .drop => []

/-- POLL and a pulse in one edge: both are taken, one after the other, and the free value says in which order (30_encoding.md R92). -/
def serialise (now : Time) (line : Line) (ts : Time) (s : State) : Fetched :=
  let s' := { s with draws := s.draws + 1 }
  if Config.pollFirst s.draws then .runTwo (.poll now) (pulseOn line ts) s' else .runTwo (pulseOn line ts) (.poll now) s'

/-- A decoded word, on the state that has lost its input. -/
def fetchDecoded (d : Decoded) (s : State) : Fetched :=
  match d with
  | .instr i => .run i s
  | .idle => .idle s.noEvent
  | .coincident now line ts => serialise now line ts s
  | .rejected .bothLines => .stop .bothLines

/-- The next input. With none pending nothing happens. -/
def fetch (s : State) : Fetched :=
  match s.inputs with
  | [] => .idle s.noEvent
  | .edge v ts now :: rest => fetchDecoded (decode (.strobes v ts now)) { s with inputs := rest }
  | .read r :: rest => fetchDecoded (decode (.accessor r)) { s with inputs := rest }
  | .slowPoll now edges :: rest => .run (.poll now) { s with inputs := deferredEdges edges ++ rest }
  | .constructionFailed :: _ => .stop .constructionFailed

/-- `s` set up so that the next step runs the code word. An operation becomes the next input. A frame is put where frames are
fetched from: into the accumulator, with a quiet line and a POLL at its time as the next input (30_encoding.md R70, log entry 9). -/
def placeWord (s : State) : CodeWord → State
  | .strobes v ts now => { s with inputs := .edge v ts now :: s.inputs }
  | .accessor r => { s with inputs := .read r :: s.inputs }
  | .frame bits now =>
    { s with
      dev := (s.dev.loadFrame bits).rearm (now - BitVec.ofNat 64 (Config.idleThresholdUs + 1))
      inputs := .edge 0b0100 0 now :: s.inputs }

end Sys2Proof.Machine
end

