-- ==== Sys2Proof/Machine/Edge.lean ====
section
/-! DEFINITION. An edge that takes two events. -/

namespace Sys2Proof.Machine

/-- The two events of one edge, one after the other (30_encoding.md R92, 92_eei_decisions.md D21). The edge returns what its poll returned. -/
def execTwo (i j : Instr) (s : State) : Host.Outcome State Fault Refusal :=
  match exec i s with
  | .next t =>
    match exec j t with
    | .next u => .next { u with ret := t.ret.both u.ret }
    | .fault f => .fault f
    | .refused r => .refused r
  | .fault f => .fault f
  | .refused r => .refused r

end Sys2Proof.Machine
end

