-- ==== Sys2Proof/Machine/Step.lean ====
section
/-! DEFINITION. One step of the machine, and how a word of the table is put where step fetches. -/

namespace Sys2Proof.Machine

/-- One input of the host: an event (00_scope.md R7), two of them in one edge (30_encoding.md R92), or none. -/
def step (s : State) : Host.Outcome State Fault Refusal :=
  match fetch s with
  | .run i s' => exec i s'
  | .runTwo i j s' => execTwo i j s'
  | .idle s' => .next s'
  | .stop r => .refused r

/-- `s` with the table's word as what the next step runs. -/
def State.withFetchWord (s : State) (nbits w : Nat) : State := placeWord s (tableWord nbits w)

end Sys2Proof.Machine
end

