-- ==== Sys2Proof/Machine/Ports.lean ====
section
/-! DEFINITION. The output ports in the cycle of a clock edge, as functions of the registers and of the input wires of that cycle. -/

namespace Sys2Proof.Machine

/-- The output ports (30_encoding.md R90). -/
structure Ports where
  poll_ok : Bool
  code : Data
  frame_type : FrameType
  deriving DecidableEq, Repr

/-- The record a poll decodes when a pulse shares its edge, by the order that edge takes (30_encoding.md R92). -/
def State.recordBeside (s : State) (line : Line) (ts : Time) : DeviceState :=
  if Config.pollFirst s.draws then s.dev else s.dev.onPulse line ts

/-- The poll taken in the cycle that presents the first input: the record it decodes and its time; none where `poll` is 0, where `rst`
makes the edge ignore it, or where both lines are strobed (30_encoding.md R90, R92, log entry 3). -/
def State.presentedPoll (s : State) : Option (DeviceState × Time) :=
  match s.inputs with
  | [] => none
  | .edge v ts now :: _ =>
    match v.getLsbD 3, v.getLsbD 2, v.getLsbD 1, v.getLsbD 0 with
    | false, true, false, false => some (s.dev, now)
    | false, true, false, true => some (s.recordBeside .a ts, now)
    | false, true, true, false => some (s.recordBeside .b ts, now)
    | _, _, _, _ => none
  | .read _ :: _ => none
  | .slowPoll now _ :: _ => some (s.dev, now)
  | .constructionFailed :: _ => none

/-- `poll_ok` is combinational, visible in the poll's own cycle and not latched; `code` and `frame_type` show the registers, so a poll's
new values are there from the edge on that ends its cycle (30_encoding.md R90, R91, 10_state.md R31). -/
def State.ports (s : State) : Ports :=
  { poll_ok :=
      match s.presentedPoll with
      | some (d, now) => (frameDecode d now).1.isSuccess
      | none => false
    code := s.dev.code
    frame_type := s.dev.frame_type }

end Sys2Proof.Machine
end

