-- ==== Sys2Proof/Machine/Realisation.lean ====
section
/-! DEFINITION. A realisation with a saturating `bit_count` (00_scope.md R10, 10_state.md R21, 92_eei_decisions.md D3): the same
operations, the counter stopping at `sat`. The model's own counter is the unbounded one. -/

namespace Sys2Proof.Machine

/-- The saturating increment: it stops at `sat` and never wraps (70_reset_and_hazards.md R234). -/
def satIncrement (sat n : Nat) : Nat := if n < sat then n + 1 else n

/-- An operation on the realisation: only the pulses count. -/
def execSat (sat : Nat) (i : Instr) (s : State) : Host.Outcome State Fault Refusal :=
  match i with
  | .pulseA ts => s.withDevice fun s => { s with dev := s.dev.onPulseWith (satIncrement sat) .a ts, ret := .nothing }
  | .pulseB ts => s.withDevice fun s => { s with dev := s.dev.onPulseWith (satIncrement sat) .b ts, ret := .nothing }
  | .init => exec .init s
  | .poll now => exec (.poll now) s
  | .getCode => exec .getCode s
  | .getType => exec .getType s
  | .key4 k now => exec (.key4 k now) s
  | .key8 c k now => exec (.key8 c k now) s
  | .card24 id now => exec (.card24 id now) s
  | .card26 pl id pt now => exec (.card26 pl id pt now) s
  | .card32 x id now => exec (.card32 x id now) s
  | .card34 pl id pt now => exec (.card34 pl id pt now) s
  | .noise length now => exec (.noise length now) s

/-- The default realisation (00_scope.md R10). -/
def execSatDefault (i : Instr) (s : State) : Host.Outcome State Fault Refusal := execSat Config.bitcountSat i s

end Sys2Proof.Machine
end

