-- ==== Sys2Proof/Safety.lean ====
section
/-! DEFINITION. The terms claims are stated in: runs of events, what the accumulator holds, the invariant, the host's clock duty, and
the frame-level view of the device that the format table alone gives (30_encoding.md R94). No rule of the machine reads this file. -/

namespace Sys2Proof.Machine

/-- A finite sequence of events, one after the other (70_reset_and_hazards.md R226), by a given meaning of one event. -/
def runWith (ex : Instr → State → Host.Outcome State Fault Refusal) : List Instr → State → Host.Outcome State Fault Refusal
  | [], s => .next s
  | i :: is, s =>
    match ex i s with
    | .next t => runWith ex is t
    | .fault f => .fault f
    | .refused r => .refused r

/-- A run of the model. -/
def run (is : List Instr) (s : State) : Host.Outcome State Fault Refusal := runWith exec is s

/-- `n` steps of the machine. -/
def runSteps : Nat → State → Host.Outcome State Fault Refusal
  | 0, s => .next s
  | n + 1, s =>
    match step s with
    | .next t => runSteps n t
    | .fault f => .fault f
    | .refused r => .refused r

/-- Pulses by line and timestamp, oldest first. -/
def pulses (ps : List (Line × Time)) : List Instr := ps.map fun p => pulseOn p.1 p.2

/-- A frame's bits, written as in the tables: 0 for line A, 1 for line B, the first received on the left (00_scope.md R15). -/
def bitsFromDigits (digits : List Nat) : List Bool := digits.map (· == 1)

/-- The line that sends a bit (00_scope.md R2). -/
def lineOf : Bool → Line
  | false => .a
  | true => .b

/-- The trace notation `FRAME(bits)@t0+d`: one pulse per bit, `d` apart from `t0` on (00_scope.md R15). -/
def frameTrace : List Bool → Time → Time → List (Line × Time)
  | [], _, _ => []
  | b :: bs, t0, d => (lineOf b, t0) :: frameTrace bs (t0 + d) d

/-- The bits of a run of pulses (00_scope.md R14). -/
def bitsOfPulses (ps : List (Line × Time)) : List Bool := ps.map fun p => p.1.bit

/-- The accumulator is the image of the bits received since the last clear (40_accumulate.md R106). -/
abbrev DeviceState.Holds (d : DeviceState) (bits : List Bool) : Prop :=
  d.bit_count = bits.length ∧
  d.data_low.toNat = 2 * (frameValue bits % 2 ^ 31) ∧
  d.data_high.toNat = 2 * (frameValue bits / 2 ^ 31 % 2 ^ 31)

/-- The values `frame_type` takes (10_state.md R26). -/
def legalTypes : List FrameType := [0, 4, 8, 24, 26, 32, 34]

/-- The invariant: the registers are the image of some run of bits (10_state.md R27), and `frame_type` is a legal one (R26). -/
def State.Inv (s : State) : Prop := (∃ bits, s.dev.Holds bits) ∧ s.dev.frame_type ∈ legalTypes

/-- Is it one of the six operations of the block, which a step can take from the host (30_encoding.md R83)? -/
def isOperation : Instr → Bool
  | .init => true
  | .pulseA _ => true
  | .pulseB _ => true
  | .poll _ => true
  | .getCode => true
  | .getType => true
  | .key4 _ _ => false
  | .key8 _ _ _ => false
  | .card24 _ _ => false
  | .card26 _ _ _ _ => false
  | .card32 _ _ _ => false
  | .card34 _ _ _ _ => false
  | .noise _ _ => false

/-- The time an event carries, if any. -/
def timeOf : Instr → Option Time
  | .init => none
  | .pulseA ts => some ts
  | .pulseB ts => some ts
  | .poll now => some now
  | .getCode => none
  | .getType => none
  | .key4 _ now => some now
  | .key8 _ _ now => some now
  | .card24 _ now => some now
  | .card26 _ _ _ now => some now
  | .card32 _ _ now => some now
  | .card34 _ _ _ now => some now
  | .noise _ now => some now

/-- Host duty H-5: no time is below `t0` or below an earlier event's (70_reset_and_hazards.md R224). -/
def MonotoneFrom : Time → List Instr → Prop
  | _, [] => True
  | t0, i :: is =>
    match timeOf i with
    | none => MonotoneFrom t0 is
    | some t => t0 ≤ t ∧ MonotoneFrom t is

/-! ### The frame-level view -/

/-- The device as the format table sees it: the bits themselves in place of the two shift buffers and the counter. -/
structure FrameView where
  bits : List Bool
  last : Time
  code : Data
  frame_type : FrameType
  ret : Ret
  deriving DecidableEq, Repr

/-- The table's column "code": what a frame row writes to `code`, none where it leaves it (30_encoding.md R79). -/
def rowCode : Instr → Option Data
  | .key4 k _ => some (translateKey k)
  | .key8 c k _ => if k = ~~~c then some (translateKey k) else none
  | .card24 id _ => some (id.setWidth 32)
  | .card26 _ id _ _ => some (id.setWidth 32)
  | .card32 _ id _ => some (id.setWidth 32)
  | .card34 _ id _ _ => some id
  | .noise _ _ => none
  | .init => none
  | .pulseA _ => none
  | .pulseB _ => none
  | .poll _ => none
  | .getCode => none
  | .getType => none

/-- The table's column "frame_type": what a frame row writes to `frame_type`, none where it leaves it. -/
def rowType : Instr → Option FrameType
  | .key4 _ _ => some 4
  | .key8 _ _ _ => some 8
  | .card24 _ _ => some 24
  | .card26 _ _ _ _ => some 26
  | .card32 _ _ _ => some 32
  | .card34 _ _ _ _ => some 34
  | .noise _ _ => none
  | .init => none
  | .pulseA _ => none
  | .pulseB _ => none
  | .poll _ => none
  | .getCode => none
  | .getType => none

/-- A frame row at poll time `now`: its code and type, an empty run; the timer is re-armed when no code is delivered. -/
def FrameView.frame (i : Instr) (now : Time) (v : FrameView) : FrameView :=
  { bits := []
    last := if (rowCode i).isSome then v.last else now
    code := (rowCode i).getD v.code
    frame_type := (rowType i).getD v.frame_type
    ret := .poll (rowCode i).isSome }

/-- One event on the view. -/
def FrameView.event (i : Instr) (v : FrameView) : FrameView :=
  match i with
  | .init => { bits := [], last := 0, code := 0, frame_type := 0, ret := .nothing }
  | .pulseA ts => { v with bits := v.bits ++ [false], last := ts, ret := .nothing }
  | .pulseB ts => { v with bits := v.bits ++ [true], last := ts, ret := .nothing }
  | .poll now => if (now - v.last).toNat ≤ 25000 then { v with ret := .poll false } else v.frame (decodeFrame v.bits now) now
  | .getCode => { v with ret := .code v.code }
  | .getType => { v with ret := .type v.frame_type.toInt }
  | .key4 _ now => v.frame i now
  | .key8 _ _ now => v.frame i now
  | .card24 _ now => v.frame i now
  | .card26 _ _ _ now => v.frame i now
  | .card32 _ _ now => v.frame i now
  | .card34 _ _ _ now => v.frame i now
  | .noise _ now => v.frame i now

/-- The state shows the view: same accumulator image, same other registers, same return value. -/
def State.Shows (s : State) (v : FrameView) : Prop :=
  s.dev.Holds v.bits ∧ s.dev.last_pulse_time = v.last ∧ s.dev.code = v.code ∧ s.dev.frame_type = v.frame_type ∧ s.ret = v.ret

end Sys2Proof.Machine
end

