-- ==== Sys2Proof/Certificates/Slice0/Obligations.lean ====
section
/-! DEFINITION. The statements for the provers.

`(now - last).toNat` is the elapsed time modulo `2^64` (41_quiet_and_length.md R121); below `last` the modular reading is the spec's own
decision D5 (log entry 8). `ret` is what the last step returned (log entry 3). -/

open Sys2Proof Sys2Proof.Machine

/-! ### Reset and INIT -/

/-- 10_state.md R33. INIT zeroes all six fields; that is what reset leaves, and pulses are accepted after it. -/
def Obligations.ResetAndInitLeaveEveryFieldZero : Prop :=
  State.reset.dev =
      { bit_count := 0, data_low := 0, data_high := 0, last_pulse_time := 0, code := 0, frame_type := 0 } ∧
    (∀ s, ∃ t, exec .init s = .next t ∧ t.dev = State.reset.dev) ∧
    ∀ line ts, ∃ t, exec (pulseOn line ts) State.reset = .next t ∧ t.dev.bit_count = 1

/-- 43_controller.md section 2. INIT on any state and all it leaves alone. On a device in use this is the spec's own decision D12 (log
entry 15); that the device then exists and that nothing is returned is the model's bookkeeping (log entries 1 and 3). -/
def Obligations.InitZeroesTheRecordInAnyState : Prop :=
  (∀ (v : Strobes) (ts now : Time), v.getLsbD 3 = true → decode (.strobes v ts now) = .instr .init) ∧
  ∀ s : State, exec .init s = .next
    { s with
      initialised := true
      dev := { bit_count := 0, data_low := 0, data_high := 0, last_pulse_time := 0, code := 0, frame_type := 0 }
      ret := .nothing }

/-- 70_reset_and_hazards.md sections 1 and 2, the spec's own decision D12 (log entry 12). Before the first INIT every other event is
refused; that frame rows are too is the model's reading (log entry 10). -/
def Obligations.EventsBeforeInitAreRefused : Prop :=
  ∀ (i : Instr) (s : State), s.initialised = false → i ≠ .init → exec i s = .refused .beforeInit

/-- 70_reset_and_hazards.md R223. The first poll after reset is false, NotReady up to 25000 and Noise beyond. -/
def Obligations.FirstPollAfterResetIsFalse : Prop :=
  ∀ now : Time,
    (now.toNat ≤ 25000 → exec (.poll now) State.reset = .next { State.reset with ret := .poll false }) ∧
    (25000 < now.toNat → exec (.poll now) State.reset =
      .next { State.reset with dev := { State.reset.dev with last_pulse_time := now }, ret := .poll false })

/-! ### The accumulator -/

/-- 40_accumulate.md R101. -/
def Obligations.PulseAShiftsInAZero : Prop :=
  (∀ ts now : Time, decode (.strobes 0b0001 ts now) = .instr (.pulseA ts)) ∧
  ∀ (ts : Time) (s : State), s.initialised = true → exec (.pulseA ts) s = .next
    { s with
      dev := { s.dev with
        bit_count := s.dev.bit_count + 1
        data_high := if s.dev.bit_count + 1 > 31 then (s.dev.data_high ||| (s.dev.data_low >>> 31)) <<< 1 else s.dev.data_high
        data_low := s.dev.data_low <<< 1
        last_pulse_time := ts }
      ret := .nothing }

/-- 40_accumulate.md R102. -/
def Obligations.PulseBShiftsInAOne : Prop :=
  (∀ ts now : Time, decode (.strobes 0b0010 ts now) = .instr (.pulseB ts)) ∧
  ∀ (ts : Time) (s : State), s.initialised = true → exec (.pulseB ts) s = .next
    { s with
      dev := { s.dev with
        bit_count := s.dev.bit_count + 1
        data_high := if s.dev.bit_count + 1 > 31 then (s.dev.data_high ||| (s.dev.data_low >>> 31)) <<< 1 else s.dev.data_high
        data_low := (s.dev.data_low ||| 1) <<< 1
        last_pulse_time := ts }
      ret := .nothing }

/-- 40_accumulate.md section 5, the law of the accumulator (R106, which the spec derives from R100), with everything else the pulses leave
alone. -/
def Obligations.AccumulatorHoldsTheRun : Prop :=
  ∀ (ps : List (Line × Time)) (s : State), s.initialised = true →
    s.dev.bit_count = 0 → s.dev.data_low = 0 → s.dev.data_high = 0 →
    ∃ t, run (pulses ps) s = .next t ∧
      t.dev.bit_count = ps.length ∧
      t.dev.data_low.toNat = 2 * (frameValue (bitsOfPulses ps) % 2 ^ 31) ∧
      t.dev.data_high.toNat = 2 * (frameValue (bitsOfPulses ps) / 2 ^ 31 % 2 ^ 31) ∧
      t.dev.last_pulse_time = (ps.getLast?.map Prod.snd).getD s.dev.last_pulse_time ∧
      t.dev.code = s.dev.code ∧ t.dev.frame_type = s.dev.frame_type ∧
      t.initialised = true ∧ t.inputs = s.inputs

/-- 40_accumulate.md section 5 (R107, which the spec derives from R106). On every state of the invariant (so on every reachable one) the carry-and-shift of `data_high` may be done
on every pulse; on the unreachable record with `bit_count = 0` and `data_low[31] = 1` it may not. -/
def Obligations.CarryGuardIsRedundantWhenReachable : Prop :=
  (∀ (s : State) (line : Line) (ts : Time), s.initialised = true → s.Inv →
    ∃ t, exec (pulseOn line ts) s = .next t ∧
      t.dev.data_high = (s.dev.data_high ||| (s.dev.data_low >>> 31)) <<< 1) ∧
  ∃ (s t : State), s.dev.bit_count = 0 ∧ s.dev.data_low.getLsbD 31 = true ∧
    exec (.pulseA 0) s = .next t ∧ t.dev.data_high ≠ (s.dev.data_high ||| (s.dev.data_low >>> 31)) <<< 1

/-- 40_accumulate.md section 5 (R108, which the spec derives from R100). Every pulse leaves bit 0 of `data_low` zero, and bit 0 of
`data_high` zero if it was; every step keeps the two bits zero; and they are zero wherever the invariant holds. -/
def Obligations.LookaheadBitsAreZero : Prop :=
  (∀ (line : Line) (ts : Time) (s : State), s.initialised = true → ∃ t, exec (pulseOn line ts) s = .next t ∧
    t.dev.data_low.getLsbD 0 = false ∧ (s.dev.data_high.getLsbD 0 = false → t.dev.data_high.getLsbD 0 = false)) ∧
  (∀ s t : State, s.dev.data_low.getLsbD 0 = false → s.dev.data_high.getLsbD 0 = false → step s = .next t →
    t.dev.data_low.getLsbD 0 = false ∧ t.dev.data_high.getLsbD 0 = false) ∧
  ∀ s : State, s.Inv → s.dev.data_low.getLsbD 0 = false ∧ s.dev.data_high.getLsbD 0 = false

/-- 41_quiet_and_length.md section 3 (R127, which the spec derives from R122 and R106). The corrected buffers in closed form. -/
def Obligations.CorrectedBuffersHoldTheFrame : Prop :=
  ∀ (d : DeviceState) (bits : List Bool), d.Holds bits →
    d.correct.data_low.toNat = frameValue bits % 2 ^ 31 ∧
    (bits.length ≤ 31 → d.correct.data_low.toNat = frameValue bits ∧ d.correct.data_high = 0) ∧
    (bits.length = 32 → d.correct.data_high.toNat = 2 * (frameValue bits / 2 ^ 31)) ∧
    (32 < bits.length → d.correct.data_high.toNat = frameValue bits / 2 ^ 31 % 2 ^ 31)

/-! ### POLL: the results -/

/-- 41_quiet_and_length.md section 2, 60_exceptions.md R191; the modular difference is the spec's decision D5 (log entry 8). Up to 25000 a poll writes nothing and returns false, whatever `bit_count` is;
from 25001 it goes on, and every way on ends with an empty accumulator. -/
def Obligations.QuietTestDecidesWhetherThePollGoesOn : Prop :=
  ∀ (now : Time) (s : State), s.initialised = true →
    ((now - s.dev.last_pulse_time).toNat ≤ 25000 →
      (frameDecode s.dev now).1 = .notReady ∧ exec (.poll now) s = .next { s with ret := .poll false }) ∧
    (25001 ≤ (now - s.dev.last_pulse_time).toNat → ∃ t, exec (.poll now) s = .next t ∧
      t.dev.bit_count = 0 ∧ t.dev.data_low = 0 ∧ t.dev.data_high = 0)

/-- 41_quiet_and_length.md R124, 60_exceptions.md R192: the Noise action. -/
def Obligations.IllegalLengthIsNoise : Prop :=
  ∀ (now : Time) (s : State), s.initialised = true → 25000 < (now - s.dev.last_pulse_time).toNat →
    s.dev.bit_count ∉ [4, 8, 24, 26, 32, 34] → (frameDecode s.dev now).1 = .noise ∧ exec (.poll now) s = .next
      { s with
        dev := { s.dev with bit_count := 0, data_low := 0, data_high := 0, last_pulse_time := now }
        ret := .poll false }

/-- 42_format_decode.md R141: KEY8, by a poll on the registers. -/
def Obligations.Key8IsCheckedAndDecoded : Prop :=
  ∀ (now : Time) (s : State) (c k : Nibble), s.initialised = true → 25000 < (now - s.dev.last_pulse_time).toNat →
    s.dev.bit_count = 8 → c = (s.dev.data_low >>> 1).extractLsb' 4 4 → k = (s.dev.data_low >>> 1).extractLsb' 0 4 →
    (frameDecode s.dev now).1 = (if k = ~~~c then .success (translateKey k) 8 else .invalid) ∧
    exec (.poll now) s = .next
      (if k = ~~~c then
        { s with
          dev := { s.dev with bit_count := 0, data_low := 0, data_high := 0, frame_type := 8, code := translateKey k }
          ret := .poll true }
      else
        { s with
          dev := { s.dev with bit_count := 0, data_low := 0, data_high := 0, frame_type := 8, last_pulse_time := now }
          ret := .poll false })

/-- 42_format_decode.md section 2 (R142, which the spec derives from R141 and R127): KEY8 on the frame value, received pulse by pulse into a clear accumulator and then polled. -/
def Obligations.Key8SucceedsExactlyOnComplementaryNibbles : Prop :=
  ∀ (ps : List (Line × Time)) (now : Time) (s : State) (v : Nat), s.initialised = true → s.dev.Holds [] →
    ps.length = 8 → v = frameValue (bitsOfPulses ps) →
    ∃ t u, run (pulses ps) s = .next t ∧ exec (.poll now) t = .next u ∧
      (25000 < (now - t.dev.last_pulse_time).toNat →
        (u.ret = .poll true ↔ v % 16 + v / 16 = 15) ∧
        (u.ret = .poll true ↔ BitVec.ofNat 4 (v / 16) ^^^ BitVec.ofNat 4 v = 0xF) ∧
        (u.ret = .poll true → u.dev.code = translateKey (BitVec.ofNat 4 v)) ∧
        (u.ret ≠ .poll true → u.dev.bit_count = 0 ∧ u.dev.last_pulse_time = now))

/-- 42_format_decode.md R144: KEY4, by a poll, on the registers and on the frame value `V[3:0]`. -/
def Obligations.Key4AlwaysDecodes : Prop :=
  (∀ (now : Time) (s : State), s.initialised = true → 25000 < (now - s.dev.last_pulse_time).toNat →
    s.dev.bit_count = 4 → exec (.poll now) s = .next
      { s with
        dev := { s.dev with
          bit_count := 0, data_low := 0, data_high := 0, frame_type := 4
          code := translateKey ((s.dev.data_low >>> 1).extractLsb' 0 4) }
        ret := .poll true }) ∧
  ∀ (now : Time) (s : State) (bits : List Bool), s.initialised = true → 25000 < (now - s.dev.last_pulse_time).toNat →
    bits.length = 4 → s.dev.Holds bits → exec (.poll now) s = .next
      { s with
        dev := { s.dev with
          bit_count := 0, data_low := 0, data_high := 0, frame_type := 4
          code := translateKey (field 4 0 (frameValue bits)) }
        ret := .poll true }

/-- 30_encoding.md R80: the whole table. -/
def Obligations.KeyTranslationTable : Prop :=
  [(0x0 : Nibble), 0x1, 0x2, 0x3, 0x4, 0x5, 0x6, 0x7, 0x8, 0x9, 0xA, 0xB, 0xC, 0xD, 0xE, 0xF].map translateKey =
    [0x0, 0x1, 0x2, 0x3, 0x4, 0x5, 0x6, 0x7, 0x8, 0x9, 0x1B, 0x0D, 0xC, 0xD, 0xE, 0xF]

/-- 42_format_decode.md R146: CARD24, by a poll, on the registers (the corrected `data_low` unmodified) and on the frame value `V[23:0]`. -/
def Obligations.Card24DeliversAllBits : Prop :=
  (∀ (now : Time) (s : State), s.initialised = true → 25000 < (now - s.dev.last_pulse_time).toNat →
    s.dev.bit_count = 24 → exec (.poll now) s = .next
      { s with
        dev := { s.dev with
          bit_count := 0, data_low := 0, data_high := 0, frame_type := 24
          code := s.dev.data_low >>> 1 }
        ret := .poll true }) ∧
  ∀ (now : Time) (s : State) (bits : List Bool), s.initialised = true → 25000 < (now - s.dev.last_pulse_time).toNat →
    bits.length = 24 → s.dev.Holds bits → exec (.poll now) s = .next
      { s with
        dev := { s.dev with
          bit_count := 0, data_low := 0, data_high := 0, frame_type := 24
          code := (field 24 0 (frameValue bits)).setWidth 32 }
        ret := .poll true }

/-- 42_format_decode.md R147: CARD26, by a poll, on the registers and on the frame value `V[24:1]`. -/
def Obligations.Card26StripsBothParityBits : Prop :=
  (∀ (now : Time) (s : State), s.initialised = true → 25000 < (now - s.dev.last_pulse_time).toNat →
    s.dev.bit_count = 26 → exec (.poll now) s = .next
      { s with
        dev := { s.dev with
          bit_count := 0, data_low := 0, data_high := 0, frame_type := 26
          code := ((s.dev.data_low >>> 1) &&& 0x1FFFFFE) >>> 1 }
        ret := .poll true }) ∧
  ∀ (now : Time) (s : State) (bits : List Bool), s.initialised = true → 25000 < (now - s.dev.last_pulse_time).toNat →
    bits.length = 26 → s.dev.Holds bits → exec (.poll now) s = .next
      { s with
        dev := { s.dev with
          bit_count := 0, data_low := 0, data_high := 0, frame_type := 26
          code := (field 24 1 (frameValue bits)).setWidth 32 }
        ret := .poll true }

/-- 42_format_decode.md R148: CARD32, by a poll, on the registers (`data_high` not read) and on the frame value `V[30:0]`: the first bit is lost. -/
def Obligations.Card32LosesItsFirstBit : Prop :=
  (∀ (now : Time) (s : State), s.initialised = true → 25000 < (now - s.dev.last_pulse_time).toNat →
    s.dev.bit_count = 32 → exec (.poll now) s = .next
      { s with
        dev := { s.dev with
          bit_count := 0, data_low := 0, data_high := 0, frame_type := 32
          code := s.dev.data_low >>> 1 }
        ret := .poll true }) ∧
  ∀ (now : Time) (s : State) (bits : List Bool), s.initialised = true → 25000 < (now - s.dev.last_pulse_time).toNat →
    bits.length = 32 → s.dev.Holds bits → exec (.poll now) s = .next
      { s with
        dev := { s.dev with
          bit_count := 0, data_low := 0, data_high := 0, frame_type := 32
          code := (field 31 0 (frameValue bits)).setWidth 32 }
        ret := .poll true }

/-- 42_format_decode.md R149: CARD34, by a poll, on the registers and on the frame value `V[32:1]`. -/
def Obligations.Card34ReassemblesTheId : Prop :=
  (∀ (now : Time) (s : State), s.initialised = true → 25000 < (now - s.dev.last_pulse_time).toNat →
    s.dev.bit_count = 34 → exec (.poll now) s = .next
      { s with
        dev := { s.dev with
          bit_count := 0, data_low := 0, data_high := 0, frame_type := 34
          code := (((s.dev.data_high >>> 1) &&& 0x3) <<< 30) ||| ((s.dev.data_low >>> 1) >>> 1) }
        ret := .poll true }) ∧
  ∀ (now : Time) (s : State) (bits : List Bool), s.initialised = true → 25000 < (now - s.dev.last_pulse_time).toNat →
    bits.length = 34 → s.dev.Holds bits → exec (.poll now) s = .next
      { s with
        dev := { s.dev with
          bit_count := 0, data_low := 0, data_high := 0, frame_type := 34
          code := field 32 1 (frameValue bits) }
        ret := .poll true }

/-- 42_format_decode.md section 4 (R151, which the spec derives from R146 to R149): no parity bit of a card frame changes anything, whatever the pulses that carried it: two runs of pulses
that agree on the data bits (and on the last timestamp) leave, after the poll, the same machine. -/
def Obligations.ParityBitsAreNeverVerified : Prop :=
  ∀ (ps qs : List (Line × Time)) (now : Time) (s : State), s.initialised = true → s.dev.Holds [] →
    (ps.length = 26 ∨ ps.length = 34) → qs.length = ps.length →
    (bitsOfPulses ps).tail.dropLast = (bitsOfPulses qs).tail.dropLast →
    ps.getLast?.map Prod.snd = qs.getLast?.map Prod.snd →
    ∃ t t' u, run (pulses ps) s = .next t ∧ run (pulses qs) s = .next t' ∧
      (25000 < (now - t.dev.last_pulse_time).toNat → exec (.poll now) t = .next u ∧ exec (.poll now) t' = .next u)

/-- 43_controller.md R172: what a poll returns and leaves, by the result of `decode`. -/
def Obligations.PollReturnsTrueOnlyOnSuccess : Prop :=
  ∀ (now : Time) (s : State), s.initialised = true → ∃ t, exec (.poll now) s = .next t ∧
    t.initialised = true ∧ t.inputs = s.inputs ∧ t.draws = s.draws ∧
    match (frameDecode s.dev now).1 with
    | .notReady => t.ret = .poll false ∧ t.dev = s.dev
    | .noise => t.ret = .poll false ∧
        t.dev = { s.dev with bit_count := 0, data_low := 0, data_high := 0, last_pulse_time := now }
    | .invalid => t.ret = .poll false ∧
        t.dev = { s.dev with bit_count := 0, data_low := 0, data_high := 0, last_pulse_time := now, frame_type := 8 }
    | .success c f => t.ret = .poll true ∧ f = BitVec.ofNat 8 s.dev.bit_count ∧
        t.dev = { s.dev with bit_count := 0, data_low := 0, data_high := 0, code := c, frame_type := f }

/-- 60_exceptions.md R200: which result, in the fixed order of the checks. -/
def Obligations.ChecksOfAPollAreTakenInOrder : Prop :=
  ∀ (d : DeviceState) (now : Time),
    ((frameDecode d now).1 = .notReady ↔ (now - d.last_pulse_time).toNat ≤ 25000) ∧
    ((frameDecode d now).1 = .noise ↔
      25000 < (now - d.last_pulse_time).toNat ∧ d.bit_count ∉ [4, 8, 24, 26, 32, 34]) ∧
    ((frameDecode d now).1 = .invalid ↔
      25000 < (now - d.last_pulse_time).toNat ∧ d.bit_count = 8 ∧
        (d.data_low >>> 1).extractLsb' 0 4 ≠ ~~~((d.data_low >>> 1).extractLsb' 4 4))

/-- 30_encoding.md section 5: the internal two-bit result, the spec's own decision D8 (log entry 14), and the port `poll_ok` in the cycle of
a POLL, which the spec's own decision D2 gives. -/
def Obligations.ResultEncodingAndPollOk : Prop :=
  DecodeResult.notReady.wire = 0b00 ∧ DecodeResult.noise.wire = 0b01 ∧ DecodeResult.invalid.wire = 0b10 ∧
  (∀ c f, (DecodeResult.success c f).wire = 0b11) ∧
  ∀ (ts now : Time) (rest : List Input) (s : State), s.initialised = true → s.inputs = .edge 0b0100 ts now :: rest →
    (s.ports.poll_ok = true ↔ (frameDecode s.dev now).1.wire = 0b11) ∧
    ∃ t, step s = .next t ∧ (t.ret = .poll true ↔ (frameDecode s.dev now).1.wire = 0b11)

/-! ### The frame rows as instructions (log entry 10) -/

/-- 30_encoding.md sections 1, 2 and 6. KEY4 and KEY8 as instructions that carry their own fields, on any device: the model's choice, log
entry 10. -/
def Obligations.KeyRowsCheckAndTranslate : Prop :=
  (∀ (k : Nibble) (now : Time) (s : State), s.initialised = true → exec (.key4 k now) s = .next
    { s with
      dev := { s.dev with bit_count := 0, data_low := 0, data_high := 0, frame_type := 4, code := translateKey k }
      ret := .poll true }) ∧
  ∀ (c k : Nibble) (now : Time) (s : State), s.initialised = true → exec (.key8 c k now) s = .next
    (if k = ~~~c then
      { s with
        dev := { s.dev with bit_count := 0, data_low := 0, data_high := 0, frame_type := 8, code := translateKey k }
        ret := .poll true }
    else
      { s with
        dev := { s.dev with bit_count := 0, data_low := 0, data_high := 0, frame_type := 8, last_pulse_time := now }
        ret := .poll false })

/-- 30_encoding.md sections 1, 2 and 6. The card rows as instructions that carry their own fields, on any device, whatever the parity bits
and the lost bit: the model's choice, log entry 10. -/
def Obligations.CardRowsDeliverTheirId : Prop :=
  (∀ (id : BitVec 24) (now : Time) (s : State), s.initialised = true → exec (.card24 id now) s = .next
    { s with
      dev := { s.dev with bit_count := 0, data_low := 0, data_high := 0, frame_type := 24, code := id.setWidth 32 }
      ret := .poll true }) ∧
  (∀ (pl : Bool) (id : BitVec 24) (pt : Bool) (now : Time) (s : State), s.initialised = true →
    exec (.card26 pl id pt now) s = .next
      { s with
        dev := { s.dev with bit_count := 0, data_low := 0, data_high := 0, frame_type := 26, code := id.setWidth 32 }
        ret := .poll true }) ∧
  (∀ (x : Bool) (id : BitVec 31) (now : Time) (s : State), s.initialised = true →
    exec (.card32 x id now) s = .next
      { s with
        dev := { s.dev with bit_count := 0, data_low := 0, data_high := 0, frame_type := 32, code := id.setWidth 32 }
        ret := .poll true }) ∧
  ∀ (pl : Bool) (id : BitVec 32) (pt : Bool) (now : Time) (s : State), s.initialised = true →
    exec (.card34 pl id pt now) s = .next
      { s with
        dev := { s.dev with bit_count := 0, data_low := 0, data_high := 0, frame_type := 34, code := id }
        ret := .poll true }

/-- 30_encoding.md section 3 and 41_quiet_and_length.md section 4. NOISE as an instruction, on any device: the model's choice, log entry 10. -/
def Obligations.NoiseRowClearsAndRearms : Prop :=
  ∀ (n : Nat) (now : Time) (s : State), s.initialised = true → n ∉ [4, 8, 24, 26, 32, 34] →
    exec (.noise n now) s = .next
      { s with
        dev := { s.dev with bit_count := 0, data_low := 0, data_high := 0, last_pulse_time := now }
        ret := .poll false }

/-! ### The accessors -/

/-- 43_controller.md R176, 30_encoding.md R91. GET_CODE returns the register and writes nothing of the block. -/
def Obligations.GetCodeIsPure : Prop :=
  decode (.accessor .code) = .instr .getCode ∧
  ∀ s : State, s.initialised = true → exec .getCode s = .next { s with ret := .code s.dev.code } ∧ s.ports.code = s.dev.code

/-- 43_controller.md R177. GET_TYPE returns the register as a signed integer; under the invariant it is never negative. That the register
has 8 bits is the spec's decision D4 (log entry 7). -/
def Obligations.GetTypeIsPureAndNeverNegative : Prop :=
  decode (.accessor .frameType) = .instr .getType ∧
  ∀ s : State, s.initialised = true → exec .getType s = .next { s with ret := .type s.dev.frame_type.toInt } ∧
    s.ports.frame_type = s.dev.frame_type ∧
    (s.Inv → s.dev.frame_type.toInt ∈ [(0 : Int), 4, 8, 24, 26, 32, 34])

/-- 20_memory.md section 5 (R60, which the spec derives from R28). However pulses fall before an accessor, its answer is the same. -/
def Obligations.AccessorsDoNotSeePulses : Prop :=
  ∀ (ps : List (Line × Time)) (s : State), s.initialised = true →
    ∃ t u w, run (pulses ps) s = .next t ∧
      exec .getCode t = .next u ∧ u.ret = .code s.dev.code ∧
      exec .getType t = .next w ∧ w.ret = .type s.dev.frame_type.toInt

/-! ### Sequences -/

/-- 41_quiet_and_length.md R125. Polls of a device with an empty accumulator, at whatever times: all return false, `code` and `frame_type`
stay, and the timer moves to `now` with each poll that finds more than 25000 elapsed (Noise) and with no other (NotReady). -/
def Obligations.IdleDeviceIsInvisibleToPolls : Prop :=
  ∀ (nows : List Time) (s : State), s.initialised = true → s.dev.Holds [] →
    ∃ t, run (nows.map .poll) s = .next t ∧ (nows ≠ [] → t.ret = .poll false) ∧
      t.dev = { s.dev with
        last_pulse_time := nows.foldl (fun last now => if (now - last).toNat ≤ 25000 then last else now) s.dev.last_pulse_time }

/-- 43_controller.md section 4. Early polls change nothing, the first late poll consumes, and every poll after it returns false and leaves
`code` and `frame_type`: a frame is reported true at most once. -/
def Obligations.FrameIsReportedOnce : Prop :=
  ∀ (early : List Time) (now : Time) (later : List Time) (s : State), s.initialised = true →
    (∀ e ∈ early, (e - s.dev.last_pulse_time).toNat ≤ 25000) → 25000 < (now - s.dev.last_pulse_time).toNat →
    ∃ r t u, run (early.map .poll) s = .next r ∧ r.dev = s.dev ∧ (early ≠ [] → r.ret = .poll false) ∧
      exec (.poll now) r = .next t ∧ t.dev.Holds [] ∧
      run (later.map .poll) t = .next u ∧ u.dev.code = t.dev.code ∧ u.dev.frame_type = t.dev.frame_type ∧
      (later ≠ [] → u.ret = .poll false)

/-- 70_reset_and_hazards.md section 3 (R230, R231, which the spec derives from R100 and R121). A poll that is not quiet, between two runs of pulses, changes nothing of the record the whole
run leaves: the bits are joined, and a quiet poll decodes them as one
frame: it is the frame row of the joined bits, which as an instruction of its own is the model's choice (log entry 10). -/
def Obligations.FramesAreJoinedWithoutAQuietPoll : Prop :=
  ∀ (ps qs : List (Line × Time)) (mid now : Time) (s t : State), s.initialised = true → s.dev.Holds [] →
    run (pulses ps) s = .next t → (mid - t.dev.last_pulse_time).toNat ≤ 25000 →
    ∃ u w, run (pulses ps ++ .poll mid :: pulses qs) s = .next u ∧ run (pulses (ps ++ qs)) s = .next w ∧ u.dev = w.dev ∧
      u.dev.Holds (bitsOfPulses ps ++ bitsOfPulses qs) ∧
      (25000 < (now - u.dev.last_pulse_time).toNat →
        exec (.poll now) u = exec (decodeFrame (bitsOfPulses ps ++ bitsOfPulses qs) now) u)

/-- 40_accumulate.md section 4, 70_reset_and_hazards.md section 3. More than 34 pulses end as Noise at the next quiet poll. -/
def Obligations.OverrunEndsAsNoise : Prop :=
  ∀ (ps : List (Line × Time)) (now : Time) (s : State), s.initialised = true → s.dev.Holds [] → 34 < ps.length →
    ∃ t, run (pulses ps) s = .next t ∧
      (25000 < (now - t.dev.last_pulse_time).toNat → exec (.poll now) t = .next
        { t with
          dev := { s.dev with bit_count := 0, data_low := 0, data_high := 0, last_pulse_time := now }
          ret := .poll false })

/-- 70_reset_and_hazards.md section 2, duty H-5, and 41_quiet_and_length.md section 2. While the host's times do not go back, the modular difference of a
poll is the plain one. -/
def Obligations.MonotoneTimesMakeElapsedPlain : Prop :=
  ∀ (is : List Instr) (now t0 : Time) (s t : State), s.dev.last_pulse_time ≤ t0 → MonotoneFrom t0 (is ++ [.poll now]) →
    run is s = .next t →
    t.dev.last_pulse_time ≤ now ∧
    (now - t.dev.last_pulse_time).toNat = now.toNat - t.dev.last_pulse_time.toNat

/-- 60_exceptions.md section 1, 70_reset_and_hazards.md section 2, the spec's decisions D14 and D1. Every finite sequence of events from reset has a next state: nothing faults,
nothing waits, there is no terminal state. -/
def Obligations.EveryRunFromResetCompletes : Prop :=
  ∀ is : List Instr, ∃ t, run is State.reset = .next t ∧ t.initialised = true

/-! ### Encodings -/

/-- 30_encoding.md sections 1, 5 and 6; the strobe vectors are the spec's decision D2, the words of the frame rows the model's (log entry
10). Every instruction is what its own code word decodes to, at every value of every operand. -/
def Obligations.DecodeOfEncodeIsTheInstruction : Prop :=
  ∀ i : Instr, i.wellFormed = true → decode (encode i) = .instr i

/-- 30_encoding.md section 3; frame words are the model's (log entry 10). A frame word of legal length is what its own instruction encodes to: no bit pattern is reserved and no bit is
dropped. And every frame decodes to a well-formed instruction. -/
def Obligations.EncodeOfDecodedFrameIsTheFrame : Prop :=
  ∀ (bits : List Bool) (now : Time), (decodeFrame bits now).wellFormed = true ∧
    (bits.length ∈ [4, 8, 24, 26, 32, 34] → encode (decodeFrame bits now) = .frame bits now)

/-- 30_encoding.md section 5, the strobe table row by row, the spec's decisions D2, D6 and D21 (log entries 4 and 11); the two refused
vectors refuse the step. -/
def Obligations.StrobeVectorTable : Prop :=
  ∀ (v : Strobes) (ts now : Time),
    (v.getLsbD 3 = true → decode (.strobes v ts now) = .instr .init) ∧
    (v = 0b0000 → decode (.strobes v ts now) = .idle) ∧
    (v = 0b0001 → decode (.strobes v ts now) = .instr (.pulseA ts)) ∧
    (v = 0b0010 → decode (.strobes v ts now) = .instr (.pulseB ts)) ∧
    (v = 0b0100 → decode (.strobes v ts now) = .instr (.poll now)) ∧
    (v = 0b0101 → decode (.strobes v ts now) = .coincident now .a ts) ∧
    (v = 0b0110 → decode (.strobes v ts now) = .coincident now .b ts) ∧
    (v = 0b0011 ∨ v = 0b0111 → ∀ (s : State) (rest : List Input), s.inputs = .edge v ts now :: rest →
      step s = .refused .bothLines)

/-- 30_encoding.md sections 1 and 5. Words written out bit by bit: 95_test_vectors.md T4-3, T8-1, T24-1, T26-1, T32-4, T34-1, TL-2. -/
def Obligations.SampleWordsDecode : Prop :=
  decode (.strobes 0b0010 500 0) = .instr (.pulseB 500) ∧
  decode (.frame (bitsFromDigits [1, 0, 1, 1]) 9) = .instr (.key4 0xB 9) ∧
  decode (.frame (bitsFromDigits [1, 1, 1, 0, 0, 0, 0, 1]) 9) = .instr (.key8 0xE 0x1 9) ∧
  decode (.frame (bitsFromDigits [1, 0, 1, 0, 1, 0, 1, 1, 1, 1, 0, 0, 1, 1, 0, 1, 1, 1, 1, 0, 1, 1, 1, 1]) 9) =
    .instr (.card24 0xABCDEF 9) ∧
  decode (.frame (bitsFromDigits [0, 1, 1, 1, 0, 1, 0, 0, 1, 1, 1, 1, 0, 0, 0, 0, 0, 0, 0, 0, 0, 0, 0, 0, 0, 1]) 9) =
    .instr (.card26 false 0xE9E000 true 9) ∧
  decode (.frame (bitsFromDigits [1, 0, 0, 1, 0, 0, 1, 0, 0, 0, 1, 1, 0, 1, 0, 0, 0, 1, 0, 1, 0, 1, 1, 0, 0, 1, 1, 1, 1, 0, 0, 0]) 9) =
    .instr (.card32 true 0x12345678 9) ∧
  decode (.frame (bitsFromDigits [1, 1, 1, 0, 1, 1, 1, 1, 0, 1, 0, 1, 0, 1, 1, 0, 1, 1, 0, 1, 1, 1, 1, 1, 0, 1, 1, 1, 0, 1, 1, 1, 1, 0]) 9) =
    .instr (.card34 true 0xDEADBEEF false 9) ∧
  decode (.frame (bitsFromDigits [1, 0, 1, 0, 1]) 9) = .instr (.noise 5 9)

/-! ### Steps -/

/-- 43_controller.md section 2, 30_encoding.md section 5. A step runs the decoded instruction on the state that has lost its input; an idle
edge and an empty list of inputs change nothing and return nothing (10_state.md section 4). That the host's events are held in a list is the
model's choice (log entry 2); that a failed construction is refused is the spec's own decision D18 (log entry 13). -/
def Obligations.StepRunsTheDecodedInstruction : Prop :=
  ∀ (s : State) (rest : List Input) (i : Instr),
    (∀ v ts now, s.inputs = .edge v ts now :: rest → decode (.strobes v ts now) = .instr i →
      step s = exec i { s with inputs := rest }) ∧
    (∀ r, s.inputs = .read r :: rest → decode (.accessor r) = .instr i → step s = exec i { s with inputs := rest }) ∧
    (∀ v ts now, s.inputs = .edge v ts now :: rest → decode (.strobes v ts now) = .idle →
      step s = .next { s with inputs := rest, ret := .nothing }) ∧
    (s.inputs = [] → step s = .next { s with ret := .nothing }) ∧
    (s.inputs = .constructionFailed :: rest → step s = .refused .constructionFailed)

/-- 30_encoding.md sections 1 and 6 (log entry 10). The frame is the instruction word: a step whose input is POLL, on a quiet line, is the frame row's instruction
decoded from the bits the accumulator holds. -/
def Obligations.QuietPollRunsTheFrameInstruction : Prop :=
  ∀ (s : State) (rest : List Input) (ts now : Time) (bits : List Bool), s.initialised = true →
    s.inputs = .edge 0b0100 ts now :: rest → s.dev.Holds bits → 25000 < (now - s.dev.last_pulse_time).toNat →
    step s = exec (decodeFrame bits now) { s with inputs := rest }

/-- The model's own (log entry 9): a word placed by `withFetchWord` is what the very next step runs. An operation runs on the state itself; a
frame row runs on the state whose accumulator holds the frame's bits and whose line has been quiet for 25001. -/
def Obligations.PlacedWordIsRunByTheNextStep : Prop :=
  ∀ (s : State) (nbits w : Nat) (i : Instr), s.initialised = true → decodeTableWord nbits w = some i →
    (∃ v ts now, tableWord nbits w = .strobes v ts now ∧ step (s.withFetchWord nbits w) = exec i s) ∨
    ∃ bits now d, tableWord nbits w = .frame bits now ∧ d.Holds bits ∧ d.last_pulse_time = now - 25001 ∧
      d.code = s.dev.code ∧ d.frame_type = s.dev.frame_type ∧
      step (s.withFetchWord nbits w) = exec i { s with dev := d }

/-- 30_encoding.md section 5, the spec's decision D21 (log entry 4). POLL and a pulse in one edge: one step, which takes both events in one of
the two orders and returns the poll's Boolean. Which order is a free value: the statement holds for either. -/
def Obligations.CoincidentStrobesAreSerialised : Prop :=
  ∀ (s : State) (rest : List Input) (line : Line) (ts now : Time), s.initialised = true →
    s.inputs = .edge (0b0100 ||| strobesOf line) ts now :: rest →
    ∃ t w, step s = .next t ∧ t.inputs = rest ∧ t.initialised = true ∧ t.dev = w.dev ∧
      ((run [.poll now, pulseOn line ts] s = .next w ∧ t.ret = .poll (frameDecode s.dev now).1.isSuccess) ∨
        (run [pulseOn line ts, .poll now] s = .next w ∧ t.ret = .poll (frameDecode (s.dev.onPulse line ts) now).1.isSuccess))

/-- 43_controller.md section 1, 70_reset_and_hazards.md section 3, the spec's decision D7 (log entry 5). Edges during a poll take no effect in it; afterwards all of
them are still to come, in order and with their own timestamps, or none is. Which is an open parameter: the statement holds for either. -/
def Obligations.EdgesDuringAPollAreDeferredOrDropped : Prop :=
  ∀ (s : State) (rest : List Input) (now : Time) (edges : List (Line × Time)), s.initialised = true →
    s.inputs = .slowPoll now edges :: rest →
    ∃ t u, step s = .next t ∧ exec (.poll now) s = .next u ∧ t.dev = u.dev ∧ t.ret = u.ret ∧
      (t.inputs = rest ∨
        ∃ w x, t.inputs = edges.map (fun e => .edge (strobesOf e.1) e.2 0) ++ rest ∧
          runSteps edges.length t = .next w ∧
          run (pulses edges) u = .next x ∧ w.dev = x.dev ∧ w.inputs = rest)

/-- 60_exceptions.md section 1, 70_reset_and_hazards.md section 2, the spec's decision D14. A step of an existing device answers a next state unless the host breaks its
contract in the very input it takes. -/
def Obligations.StepCompletesWithinTheContract : Prop :=
  ∀ s : State, s.initialised = true →
    (∀ v ts now rest, s.inputs = .edge v ts now :: rest → v ≠ 0b0011 ∧ v ≠ 0b0111) →
    (∀ rest, s.inputs ≠ .constructionFailed :: rest) →
    ∃ t, step s = .next t ∧ t.initialised = true

/-! ### Whole-machine rules -/

/-- 10_state.md sections 1 and 6, 70_reset_and_hazards.md section 1. The invariant holds at reset; that the device exists then is the model's
reading (log entry 1). -/
def Obligations.ResetMeetsTheInvariant : Prop := State.reset.Inv ∧ State.reset.initialised = true

/-- 10_state.md sections 1 and 2. Every step keeps the invariant: the registers stay the image of a run of bits, `frame_type` stays legal. -/
def Obligations.EveryStepKeepsTheInvariant : Prop :=
  ∀ s t : State, s.Inv → step s = .next t → t.Inv

/-- 10_state.md sections 1 and 2 (R24, R25, R26 and the table R28, which the spec derives). Event by event: who can have changed `code`,
`frame_type`, `last_pulse_time` and the accumulator, and that a POLL that is not ready and the accessors change nothing. Step by step: every
step is a run of at most two operations, so the writers of a step are theirs. The frame rows as events are the model's choice (log entry 10). -/
def Obligations.RegistersChangeOnlyByTheirWriters : Prop :=
  (∀ (i : Instr) (s t : State), exec i s = .next t →
    (t.dev.code ≠ s.dev.code → i = .init ∨ t.ret = .poll true) ∧
    (t.dev.frame_type ≠ s.dev.frame_type → i = .init ∨ t.ret = .poll true ∨
      (t.ret = .poll false ∧ t.dev.frame_type = 8 ∧ t.dev.code = s.dev.code ∧
        ((∃ now, i = .poll now ∧ s.dev.bit_count = 8) ∨ ∃ c k now, i = .key8 c k now))) ∧
    (t.dev.last_pulse_time ≠ s.dev.last_pulse_time → i = .init ∨ (∃ line ts, i = pulseOn line ts ∧ t.dev.last_pulse_time = ts) ∨
      (t.ret = .poll false ∧ timeOf i = some t.dev.last_pulse_time ∧ t.dev.Holds [])) ∧
    (t.dev.bit_count ≠ s.dev.bit_count ∨ t.dev.data_low ≠ s.dev.data_low ∨ t.dev.data_high ≠ s.dev.data_high →
      (∃ line ts, i = pulseOn line ts) ∨ t.dev.Holds []) ∧
    (t.ret = .poll true → t.dev.last_pulse_time = s.dev.last_pulse_time) ∧
    (∀ now, i = .poll now → t.ret = .poll true → t.dev.frame_type = BitVec.ofNat 8 s.dev.bit_count) ∧
    (∀ now, i = .poll now → (now - s.dev.last_pulse_time).toNat ≤ 25000 → t.dev = s.dev) ∧
    (i = .getCode ∨ i = .getType → t.dev = s.dev)) ∧
  ∀ s t : State, step s = .next t → ∃ (is : List Instr) (u : State), is.length ≤ 2 ∧ (∀ i ∈ is, isOperation i = true) ∧
    run is s = .next u ∧ t.dev = u.dev ∧ t.initialised = u.initialised

/-- 30_encoding.md sections 2 and 6 (R79 and R94, which the spec derives from the rules of the formats). The shift registers implement the format table: over every sequence of operations and frame rows the machine
and the frame-level view, which keeps the bits themselves and reads `code` and `frame_type` off the table, give the same registers and the
same return values. -/
def Obligations.RegistersRefineTheFormatTable : Prop :=
  ∀ (is : List Instr) (s : State) (v : FrameView), s.initialised = true → s.Shows v →
    ∃ t, run is s = .next t ∧ t.Shows (is.foldl (fun v i => v.event i) v)

/-- 10_state.md section 1, 00_scope.md section 5, the spec's decision D3 (log entry 6). A saturating counter with any ceiling of at least 35 cannot be told from the unbounded one: over every
sequence of events the two machines differ in `bit_count` alone, and there only by the ceiling. -/
def Obligations.SaturatingCounterIsIndistinguishable : Prop :=
  ∀ (sat : Nat) (is : List Instr) (s t : State), 35 ≤ sat → run is s = .next t →
    runWith (execSat sat) is { s with dev := { s.dev with bit_count := min s.dev.bit_count sat } } =
      .next { t with dev := { t.dev with bit_count := min t.dev.bit_count sat } }

/-! ### The return value and the ports -/

/-- 30_encoding.md section 5, the spec's own decision D2. The ports in the cycle of every input: `poll_ok` is 1 exactly when `poll` is 1 and
the result of the decode is Success, in that very cycle and in no other; a pulse in the same edge comes before or after the decode; `code` and
`frame_type` show the registers, the new ones from the edge on. Where `rst` is 1 too, or both lines are, no poll is taken and `poll_ok` is 0:
the model's reading (log entry 3). -/
def Obligations.PollOkIsCombinational : Prop :=
  ∀ s : State,
    (s.inputs = [] → s.ports.poll_ok = false) ∧
    (∀ r rest, s.inputs = .read r :: rest → s.ports.poll_ok = false) ∧
    (∀ v ts now rest, s.inputs = .edge v ts now :: rest →
      (v.getLsbD 2 = false ∨ v.getLsbD 3 = true ∨ v = 0b0111 → s.ports.poll_ok = false) ∧
      (v = 0b0100 → s.ports.poll_ok = (frameDecode s.dev now).1.isSuccess) ∧
      ∀ line, v = 0b0100 ||| strobesOf line →
        s.ports.poll_ok = (frameDecode s.dev now).1.isSuccess ∨
        s.ports.poll_ok = (frameDecode (s.dev.onPulse line ts) now).1.isSuccess) ∧
    (s.ports.code = s.dev.code ∧ s.ports.frame_type = s.dev.frame_type) ∧
    ∀ t, step s = .next t → (s.ports.poll_ok = true ↔ t.ret = .poll true)

/-- 10_state.md section 4. The poll's Boolean is the return value of the POLL and is not latched: a step returns one only if it takes a poll,
and no later step and no port depends on what an earlier one returned. -/
def Obligations.PollResultIsNotLatched : Prop :=
  (∀ (s t : State) (ok : Bool), step s = .next t → t.ret = .poll ok →
    (∃ v ts now rest, s.inputs = .edge v ts now :: rest ∧ v.getLsbD 2 = true ∧ v.getLsbD 3 = false) ∨
    ∃ now edges rest, s.inputs = .slowPoll now edges :: rest) ∧
  ∀ (s : State) (r : Ret), step { s with ret := r } = step s ∧ ({ s with ret := r } : State).ports = s.ports
end

