-- ==== Sys2Proof/Laws/Frames.lean ====
section
/-! SUPPORT. Frame values and their bits: length, range, concatenation, and that each determines the other. -/

namespace Sys2Proof

@[simp] theorem frameValue_nil : frameValue [] = 0 := rfl

theorem frameValue_append_singleton (bits : List Bool) (b : Bool) :
    frameValue (bits ++ [b]) = 2 * frameValue bits + b.toNat := by
  simp [frameValue, List.foldl_append]

theorem frameValue_append (as bs : List Bool) :
    frameValue (as ++ bs) = frameValue as * 2 ^ bs.length + frameValue bs := by
  induction bs using List.reverseRecOn with
  | nil => simp
  | append_singleton bs b ih =>
    rw [← List.append_assoc, frameValue_append_singleton, frameValue_append_singleton, ih]
    simp only [List.length_append, List.length_singleton, Nat.pow_succ]
    ring

theorem frameValue_cons (b : Bool) (bs : List Bool) :
    frameValue (b :: bs) = b.toNat * 2 ^ bs.length + frameValue bs := by
  have h := frameValue_append [b] bs
  simpa [frameValue] using h

theorem frameValue_lt (bits : List Bool) : frameValue bits < 2 ^ bits.length := by
  induction bits using List.reverseRecOn with
  | nil => simp
  | append_singleton bs b ih =>
    rw [frameValue_append_singleton, List.length_append, List.length_singleton, Nat.pow_succ]
    have := Bool.toNat_lt b
    omega

@[simp] theorem bitsOf_length (n v : Nat) : (bitsOf n v).length = n := by
  induction n with
  | zero => rfl
  | succ n ih => simp [bitsOf, ih]

theorem mod_two_pow_succ_eq (n v : Nat) : v % 2 ^ (n + 1) = (v.testBit n).toNat * 2 ^ n + v % 2 ^ n := by
  rw [Nat.mod_pow_succ, Nat.testBit_eq_decide_div_mod_eq]
  have hlt : v / 2 ^ n % 2 < 2 := Nat.mod_lt _ (by decide)
  interval_cases h : v / 2 ^ n % 2
  · simp
  · simp
    ring

/-- The bits of `v` spell `v`, as far as they go. -/
theorem frameValue_bitsOf (n v : Nat) : frameValue (bitsOf n v) = v % 2 ^ n := by
  induction n with
  | zero => simp [bitsOf, Nat.mod_one]
  | succ n ih =>
    rw [bitsOf, frameValue_cons, ih, bitsOf_length, mod_two_pow_succ_eq]

theorem bitsOf_mod (n v : Nat) : bitsOf n (v % 2 ^ n) = bitsOf n v := by
  suffices ∀ m, n ≤ m → bitsOf n (v % 2 ^ m) = bitsOf n v from this n le_rfl
  induction n with
  | zero => intros; rfl
  | succ n ih =>
    intro m h
    rw [bitsOf, bitsOf, ih m (by omega), Nat.testBit_mod_two_pow]
    simp [show n < m by omega]

/-- A frame's value determines its bits. -/
theorem bitsOf_frameValue (bits : List Bool) : bitsOf bits.length (frameValue bits) = bits := by
  induction bits with
  | nil => rfl
  | cons b bs ih =>
    have hlt := frameValue_lt bs
    rw [List.length_cons, bitsOf, frameValue_cons]
    congr 1
    · rw [Nat.testBit_eq_decide_div_mod_eq, Nat.mul_comm, Nat.mul_add_div (Nat.two_pow_pos _), Nat.div_eq_of_lt hlt]
      cases b <;> simp
    · rw [← bitsOf_mod, Nat.mul_comm, Nat.mul_add_mod, bitsOf_mod, ih]

end Sys2Proof
end

