-- ==== Sys2Proof/Laws/State.lean ====
section
/-! SUPPORT. One lemma per field per update of the record and of the state. -/

namespace Sys2Proof.Machine

namespace DeviceState

@[simp] theorem clear_bit_count (d : DeviceState) : d.clear.bit_count = 0 := rfl
@[simp] theorem clear_data_low (d : DeviceState) : d.clear.data_low = 0 := rfl
@[simp] theorem clear_data_high (d : DeviceState) : d.clear.data_high = 0 := rfl
@[simp] theorem clear_last_pulse_time (d : DeviceState) : d.clear.last_pulse_time = d.last_pulse_time := rfl
@[simp] theorem clear_code (d : DeviceState) : d.clear.code = d.code := rfl
@[simp] theorem clear_frame_type (d : DeviceState) : d.clear.frame_type = d.frame_type := rfl

@[simp] theorem rearm_bit_count (d : DeviceState) (t : Time) : (d.rearm t).bit_count = d.bit_count := rfl
@[simp] theorem rearm_data_low (d : DeviceState) (t : Time) : (d.rearm t).data_low = d.data_low := rfl
@[simp] theorem rearm_data_high (d : DeviceState) (t : Time) : (d.rearm t).data_high = d.data_high := rfl
@[simp] theorem rearm_last_pulse_time (d : DeviceState) (t : Time) : (d.rearm t).last_pulse_time = t := rfl
@[simp] theorem rearm_code (d : DeviceState) (t : Time) : (d.rearm t).code = d.code := rfl
@[simp] theorem rearm_frame_type (d : DeviceState) (t : Time) : (d.rearm t).frame_type = d.frame_type := rfl

@[simp] theorem onPulseWith_bit_count (inc : Nat → Nat) (d : DeviceState) (l : Line) (t : Time) :
    (d.onPulseWith inc l t).bit_count = inc d.bit_count := rfl
@[simp] theorem onPulseWith_last_pulse_time (inc : Nat → Nat) (d : DeviceState) (l : Line) (t : Time) :
    (d.onPulseWith inc l t).last_pulse_time = t := rfl
@[simp] theorem onPulseWith_code (inc : Nat → Nat) (d : DeviceState) (l : Line) (t : Time) :
    (d.onPulseWith inc l t).code = d.code := rfl
@[simp] theorem onPulseWith_frame_type (inc : Nat → Nat) (d : DeviceState) (l : Line) (t : Time) :
    (d.onPulseWith inc l t).frame_type = d.frame_type := rfl

@[simp] theorem onPulse_bit_count (d : DeviceState) (l : Line) (t : Time) : (d.onPulse l t).bit_count = d.bit_count + 1 := rfl
@[simp] theorem onPulse_data_low (d : DeviceState) (l : Line) (t : Time) :
    (d.onPulse l t).data_low = (d.data_low ||| (if l.bit then 1 else 0)) <<< 1 := rfl
@[simp] theorem onPulse_data_high (d : DeviceState) (l : Line) (t : Time) : (d.onPulse l t).data_high =
    if d.bit_count + 1 > 31 then (d.data_high ||| (d.data_low >>> 31)) <<< 1 else d.data_high := rfl
@[simp] theorem onPulse_last_pulse_time (d : DeviceState) (l : Line) (t : Time) : (d.onPulse l t).last_pulse_time = t := rfl
@[simp] theorem onPulse_code (d : DeviceState) (l : Line) (t : Time) : (d.onPulse l t).code = d.code := rfl
@[simp] theorem onPulse_frame_type (d : DeviceState) (l : Line) (t : Time) : (d.onPulse l t).frame_type = d.frame_type := rfl

@[simp] theorem correct_bit_count (d : DeviceState) : d.correct.bit_count = d.bit_count := rfl
@[simp] theorem correct_data_low (d : DeviceState) : d.correct.data_low = d.data_low >>> 1 := rfl
@[simp] theorem correct_data_high (d : DeviceState) :
    d.correct.data_high = if d.bit_count > 32 then d.data_high >>> 1 else d.data_high := rfl
@[simp] theorem correct_last_pulse_time (d : DeviceState) : d.correct.last_pulse_time = d.last_pulse_time := rfl
@[simp] theorem correct_code (d : DeviceState) : d.correct.code = d.code := rfl
@[simp] theorem correct_frame_type (d : DeviceState) : d.correct.frame_type = d.frame_type := rfl

@[simp] theorem loadFrame_bit_count (d : DeviceState) (bits : List Bool) : (d.loadFrame bits).bit_count = bits.length := rfl
@[simp] theorem loadFrame_last_pulse_time (d : DeviceState) (bits : List Bool) :
    (d.loadFrame bits).last_pulse_time = d.last_pulse_time := rfl
@[simp] theorem loadFrame_code (d : DeviceState) (bits : List Bool) : (d.loadFrame bits).code = d.code := rfl
@[simp] theorem loadFrame_frame_type (d : DeviceState) (bits : List Bool) : (d.loadFrame bits).frame_type = d.frame_type := rfl

/-- A correction that is followed by a clear leaves no trace (41_quiet_and_length.md R122). -/
@[simp] theorem correct_clear (d : DeviceState) : d.correct.clear = d.clear := rfl

/-- Nor does a loaded frame. -/
@[simp] theorem loadFrame_clear (d : DeviceState) (bits : List Bool) : (d.loadFrame bits).clear = d.clear := rfl

end DeviceState

namespace State

@[simp] theorem finishPoll_initialised (s : State) (r : DecodeResult × DeviceState) :
    (s.finishPoll r).initialised = s.initialised := rfl
@[simp] theorem finishPoll_dev (s : State) (r : DecodeResult × DeviceState) : (s.finishPoll r).dev = r.2 := rfl
@[simp] theorem finishPoll_ret (s : State) (r : DecodeResult × DeviceState) : (s.finishPoll r).ret = .poll r.1.isSuccess := rfl
@[simp] theorem finishPoll_inputs (s : State) (r : DecodeResult × DeviceState) : (s.finishPoll r).inputs = s.inputs := rfl
@[simp] theorem finishPoll_draws (s : State) (r : DecodeResult × DeviceState) : (s.finishPoll r).draws = s.draws := rfl

@[simp] theorem reset_initialised : State.reset.initialised = true := rfl
@[simp] theorem reset_dev : State.reset.dev = DeviceState.zero := rfl
@[simp] theorem reset_inputs : State.reset.inputs = [] := rfl

@[simp] theorem noEvent_dev (s : State) : s.noEvent.dev = s.dev := rfl
@[simp] theorem noEvent_initialised (s : State) : s.noEvent.initialised = s.initialised := rfl
@[simp] theorem noEvent_ret (s : State) : s.noEvent.ret = .nothing := rfl
@[simp] theorem noEvent_inputs (s : State) : s.noEvent.inputs = s.inputs := rfl
@[simp] theorem noEvent_draws (s : State) : s.noEvent.draws = s.draws := rfl

end State

@[simp] theorem both_nothing (r : Ret) : Ret.both .nothing r = r := rfl
@[simp] theorem both_poll (ok : Bool) (r : Ret) : Ret.both (.poll ok) r = .poll ok := rfl

end Sys2Proof.Machine
end

