-- ==== Sys2Proof/Laws/Ops.lean ====
section
/-! SUPPORT. One law per shared operation: what it can do, cited instead of unfolding it. -/

namespace Sys2Proof.Machine

theorem withDevice_of_initialised {s : State} (f : State → State) (h : s.initialised = true) :
    s.withDevice f = .next (f s) := by simp [State.withDevice, h]

theorem withDevice_before_init {s : State} (f : State → State) (h : s.initialised = false) :
    s.withDevice f = .refused .beforeInit := by simp [State.withDevice, h]

/-- Everything `withDevice` can answer with a next state. -/
theorem withDevice_next {s t : State} {f : State → State} (h : s.withDevice f = .next t) :
    s.initialised = true ∧ t = f s := by
  unfold State.withDevice at h
  split at h
  · next hi => exact ⟨hi, by simpa using h.symm⟩
  · cases h

theorem isLegalLength_iff (n : Nat) : isLegalLength n = true ↔ n ∈ [4, 8, 24, 26, 32, 34] := by
  simp [isLegalLength, Config.legalLengths]

theorem notQuiet_iff (now last : Time) : notQuiet now last = true ↔ (now - last).toNat ≤ 25000 :=
  decide_eq_true_iff

/-- The four ways through `decode`. -/
theorem frameDecode_cases (d : DeviceState) (now : Time) :
    ((now - d.last_pulse_time).toNat ≤ 25000 ∧ frameDecode d now = (.notReady, d)) ∨
    (25000 < (now - d.last_pulse_time).toNat ∧ d.bit_count ∉ [4, 8, 24, 26, 32, 34] ∧
      frameDecode d now = noiseRule now d.correct) ∨
    (25000 < (now - d.last_pulse_time).toNat ∧ d.bit_count ∈ [4, 8, 24, 26, 32, 34] ∧
      frameDecode d now = formatRule now d.correct) := by
  unfold frameDecode
  by_cases hq : notQuiet now d.last_pulse_time = true
  · exact .inl ⟨(notQuiet_iff _ _).1 hq, by simp [hq]⟩
  · have hlt : 25000 < (now - d.last_pulse_time).toNat := by rw [notQuiet_iff] at hq; omega
    by_cases hl : isLegalLength d.bit_count = true
    · exact .inr (.inr ⟨hlt, (isLegalLength_iff _).1 hl, by simp [hq, hl]⟩)
    · exact .inr (.inl ⟨hlt, fun h => hl ((isLegalLength_iff _).2 h), by simp [hq, hl]⟩)

/-! ### The accumulator's image -/

theorem loadFrame_holds (d : DeviceState) (bits : List Bool) : (d.loadFrame bits).Holds bits := by
  refine ⟨rfl, ?_, ?_⟩
  · simp only [DeviceState.loadFrame, BitVec.toNat_ofNat]
    omega
  · simp only [DeviceState.loadFrame, BitVec.toNat_ofNat, Nat.shiftRight_eq_div_pow]
    omega

theorem loadFrame_of_holds {d : DeviceState} {bits : List Bool} (h : d.Holds bits) : d.loadFrame bits = d := by
  have hl := loadFrame_holds d bits
  have hlow : (d.loadFrame bits).data_low = d.data_low := BitVec.eq_of_toNat_eq (hl.2.1.trans h.2.1.symm)
  have hhigh : (d.loadFrame bits).data_high = d.data_high := BitVec.eq_of_toNat_eq (hl.2.2.trans h.2.2.symm)
  cases d
  simp_all [DeviceState.loadFrame, DeviceState.Holds]

theorem clear_holds (d : DeviceState) : d.clear.Holds [] := by simp [DeviceState.Holds]

theorem zero_holds : DeviceState.zero.Holds [] := by simp [DeviceState.Holds, DeviceState.zero]

/-- The empty image is the cleared accumulator. -/
theorem holds_nil_iff (d : DeviceState) : d.Holds [] ↔ d.bit_count = 0 ∧ d.data_low = 0 ∧ d.data_high = 0 := by
  simp [DeviceState.Holds, ← BitVec.toNat_inj]

/-- Timer, code and type play no part in the image. -/
theorem holds_congr {d e : DeviceState} {bits : List Bool} (hc : e.bit_count = d.bit_count) (hl : e.data_low = d.data_low)
    (hh : e.data_high = d.data_high) (h : d.Holds bits) : e.Holds bits := by
  simpa [DeviceState.Holds, hc, hl, hh] using h

end Sys2Proof.Machine
end

