-- ==== Sys2Proof/Laws/Exec.lean ====
section
/-! SUPPORT. What one event can do, said once: `effect` is the next state of an existing device. -/

namespace Sys2Proof.Machine

/-- The next state of an existing device. -/
def effect (i : Instr) (s : State) : State :=
  match i with
  | .init => { s with initialised := true, dev := DeviceState.zero, ret := .nothing }
  | .pulseA ts => { s with dev := s.dev.onPulse .a ts, ret := .nothing }
  | .pulseB ts => { s with dev := s.dev.onPulse .b ts, ret := .nothing }
  | .poll now => s.finishPoll (frameDecode s.dev now)
  | .getCode => { s with ret := .code s.dev.code }
  | .getType => { s with ret := .type s.dev.frame_type.toInt }
  | .key4 k _ => s.finishPoll (key4Rule (s.dev.loadFrame (key4Bits k)).correct)
  | .key8 c k now => s.finishPoll (key8Rule now (s.dev.loadFrame (key8Bits c k)).correct)
  | .card24 id _ => s.finishPoll (cardRule (s.dev.loadFrame (card24Bits id)).correct)
  | .card26 pl id pt _ => s.finishPoll (cardRule (s.dev.loadFrame (card26Bits pl id pt)).correct)
  | .card32 x id _ => s.finishPoll (cardRule (s.dev.loadFrame (card32Bits x id)).correct)
  | .card34 pl id pt _ => s.finishPoll (cardRule (s.dev.loadFrame (card34Bits pl id pt)).correct)
  | .noise n now => s.finishPoll (noiseRule now (s.dev.loadFrame (noiseBits n)).correct)

theorem exec_init (s : State) : exec .init s = .next (effect .init s) := rfl

theorem exec_of_ne_init {i : Instr} (s : State) (h : i ≠ .init) : exec i s = s.withDevice (effect i) := by
  cases i <;> first | rfl | exact absurd rfl h

/-- An existing device completes every event. -/
theorem exec_of_initialised {s : State} (i : Instr) (h : s.initialised = true) : exec i s = .next (effect i s) := by
  by_cases hi : i = .init
  · subst hi
    rfl
  · rw [exec_of_ne_init s hi, withDevice_of_initialised _ h]

/-- Everything an event can answer with a next state. -/
theorem exec_next {i : Instr} {s t : State} (h : exec i s = .next t) :
    t = effect i s ∧ (i = .init ∨ s.initialised = true) := by
  by_cases hi : i = .init
  · subst hi
    cases h
    exact ⟨rfl, .inl rfl⟩
  · rw [exec_of_ne_init s hi] at h
    exact ⟨(withDevice_next h).2, .inr (withDevice_next h).1⟩

@[simp] theorem effect_initialised (i : Instr) (s : State) (h : s.initialised = true) : (effect i s).initialised = true := by
  cases i <;> first | rfl | exact h

@[simp] theorem effect_inputs (i : Instr) (s : State) : (effect i s).inputs = s.inputs := by cases i <;> rfl

@[simp] theorem effect_draws (i : Instr) (s : State) : (effect i s).draws = s.draws := by cases i <;> rfl

/-- No event looks at the inputs, at the draws or at the last return value. -/
theorem effect_dev_congr (i : Instr) {s t : State} (h : s.dev = t.dev) : (effect i s).dev = (effect i t).dev := by
  cases i <;> simp [effect, h]

/-- A run of an existing device completes. -/
theorem run_of_initialised (is : List Instr) {s : State} (h : s.initialised = true) :
    run is s = .next (is.foldl (fun s i => effect i s) s) := by
  induction is generalizing s with
  | nil => rfl
  | cons i is ih =>
    rw [run, runWith, exec_of_initialised i h]
    exact ih (effect_initialised i s h)

end Sys2Proof.Machine
end

