-- ==== Sys2Proof/Laws/Formats.lean ====
section
/-! SUPPORT. Laws of a pulse, of the field extractions and of the format rules; the values of the encoder's bits. -/

namespace Sys2Proof

/-! ### Bits and fields -/

/-- A number's bits split anywhere. -/
theorem bitsOf_add (a b v : Nat) : bitsOf (a + b) v = bitsOf a (v >>> b) ++ bitsOf b v := by
  induction a with
  | zero => simp [bitsOf]
  | succ a ih => rw [Nat.add_right_comm, bitsOf, ih, bitsOf, Nat.testBit_shiftRight, Nat.add_comm b a]; rfl

theorem bitsOf_field (w lo v : Nat) : bitsOf w (field w lo v).toNat = bitsOf w (v >>> lo) := by
  rw [field, BitVec.toNat_ofNat, bitsOf_mod]

theorem frameValue_bitsOf_toNat {w : Nat} (x : BitVec w) : frameValue (bitsOf w x.toNat) = x.toNat := by
  rw [frameValue_bitsOf, Nat.mod_eq_of_lt x.isLt]

theorem key8Bits_value (c k : Nibble) : frameValue (key8Bits c k) = c.toNat * 16 + k.toNat := by
  rw [key8Bits, frameValue_append, frameValue_bitsOf_toNat, frameValue_bitsOf_toNat]; simp

theorem card26Bits_value (pl : Bool) (id : BitVec 24) (pt : Bool) : frameValue (card26Bits pl id pt) = pl.toNat * 2^25 + id.toNat * 2 + pt.toNat := by
  rw [card26Bits, frameValue_append, frameValue_cons, frameValue_bitsOf_toNat]; simp [frameValue]; ring

theorem card32Bits_value (x : Bool) (id : BitVec 31) : frameValue (card32Bits x id) = x.toNat * 2^31 + id.toNat := by
  rw [card32Bits, frameValue_cons, frameValue_bitsOf_toNat]; simp

theorem card34Bits_value (pl : Bool) (id : BitVec 32) (pt : Bool) : frameValue (card34Bits pl id pt) = pl.toNat * 2^33 + id.toNat * 2 + pt.toNat := by
  rw [card34Bits, frameValue_append, frameValue_cons, frameValue_bitsOf_toNat]; simp [frameValue]; ring

/-- A frame of illegal length is NOISE of that length. -/
theorem decodeFrame_illegal {bits : List Bool} (now) (h : bits.length ∉ [4, 8, 24, 26, 32, 34]) : decodeFrame bits now = .noise bits.length now := by
  simp at h
  simp [decodeFrame, h]

namespace Machine

/-! ### A pulse -/

/-- A pulse appends its bit to the image (40_accumulate.md R106). -/
theorem onPulse_holds {d : DeviceState} {bits : List Bool} (h : d.Holds bits) (line : Line) (ts : Time) :
    (d.onPulse line ts).Holds (bits ++ [line.bit]) := by
  obtain ⟨hc, hl, hh⟩ := h
  have hlt := frameValue_lt bits
  refine ⟨by simp [hc], ?_, ?_⟩
  · rw [frameValue_append_singleton]
    have e : (d.onPulse line ts).data_low.toNat = (2 * (d.data_low.toNat + (if line.bit then 1 else 0))) % 2^32 := by
      have : (d.data_low ||| (if line.bit then 1 else 0)) = d.data_low + (if line.bit then 1 else 0) := by
        cases line.bit
        · simp
        · have h0 : d.data_low &&& 1 = 0 := by
            apply BitVec.eq_of_toNat_eq
            simp only [BitVec.toNat_and]
            show _ &&& 1 = 0
            rw [Nat.and_one_is_mod]; omega
          simp only [if_true]
          rw [BitVec.add_eq_or_of_and_eq_zero _ _ h0]
      simp only [DeviceState.onPulse, DeviceState.onPulseWith, this, BitVec.toNat_shiftLeft, BitVec.toNat_add]
      cases line.bit <;> simp [Nat.shiftLeft_eq] <;> omega
    rw [e, hl]
    cases line.bit <;> simp <;> omega
  · rw [frameValue_append_singleton]
    by_cases hg : d.bit_count + 1 > 31
    · have e : (d.onPulse line ts).data_high.toNat = (2 * (d.data_high.toNat + d.data_low.toNat / 2^31)) % 2^32 := by
        have hb : d.data_high ||| (d.data_low >>> 31) = d.data_high + (d.data_low >>> 31) := by
          have h0 : d.data_high &&& (d.data_low >>> 31) = 0 := by
            apply BitVec.eq_of_toNat_eq
            rw [BitVec.toNat_and, BitVec.toNat_ushiftRight]
            have : d.data_low.toNat >>> 31 = 0 ∨ d.data_low.toNat >>> 31 = 1 := by
              rw [Nat.shiftRight_eq_div_pow]; omega
            rcases this with h | h <;> rw [h]
            · simp
            · rw [Nat.and_one_is_mod]; simp; omega
          rw [BitVec.add_eq_or_of_and_eq_zero _ _ h0]
        simp only [DeviceState.onPulse, DeviceState.onPulseWith, Config.carryStart, hg, if_true, hb, BitVec.toNat_shiftLeft, BitVec.toNat_add, BitVec.toNat_ushiftRight, Nat.shiftLeft_eq, Nat.shiftRight_eq_div_pow]
        omega
      rw [e, hh, hl]
      cases line.bit <;> simp <;> omega
    · have e : (d.onPulse line ts).data_high = d.data_high := by
        simp only [DeviceState.onPulse, DeviceState.onPulseWith, Config.carryStart, hg, if_false]
      have : frameValue bits < 2^30 := lt_of_lt_of_le hlt (Nat.pow_le_pow_right (by decide) (by omega))
      rw [e, hh]
      have : line.bit.toNat < 2 := Bool.toNat_lt _
      omega

theorem effect_pulseOn (line : Line) (ts : Time) (s : State) :
    effect (pulseOn line ts) s = { s with dev := s.dev.onPulse line ts, ret := .nothing } := by cases line <;> rfl

/-! ### Fields of the corrected buffers -/

theorem extractLsb_toNat (x : Data) (lo w : Nat) : (x.extractLsb' lo w).toNat = x.toNat / 2^lo % 2^w := by
  simp [BitVec.extractLsb', Nat.shiftRight_eq_div_pow]

theorem and_nibble_toNat (x : Data) : (x &&& 0xF).toNat = x.toNat % 16 := by
  rw [BitVec.toNat_and]; exact Nat.and_two_pow_sub_one_eq_mod _ 4

theorem lowNibble_eq (x : Data) : lowNibble x = x.extractLsb' 0 4 := by
  apply BitVec.eq_of_toNat_eq
  rw [extractLsb_toNat, lowNibble, BitVec.toNat_setWidth, and_nibble_toNat]; omega

theorem highNibble_eq (x : Data) : highNibble x = x.extractLsb' 4 4 := by
  apply BitVec.eq_of_toNat_eq
  rw [extractLsb_toNat, highNibble, BitVec.toNat_setWidth, and_nibble_toNat, BitVec.toNat_ushiftRight, Nat.shiftRight_eq_div_pow]; omega

theorem complementOk_iff (c k : Nibble) : complementOk c k = true ↔ k = ~~~c := by simp [complementOk]

theorem extractCardId_low {h l : Data} {n : Nat} (h1 : n ≠ 26) (h2 : n ≠ 34) : extractCardId h l n = l := by
  simp [extractCardId, h1, h2]

/-- The CARD26 formula keeps bits 24 to 1 (42_format_decode.md R147). -/
theorem card26_mask_toNat (x : Data) : ((x &&& 0x1FFFFFE) >>> 1).toNat = x.toNat / 2 % 2^24 := by
  rw [BitVec.ushiftRight_and_distrib, show (0x1FFFFFE : BitVec 32) >>> 1 = 0xFFFFFF by decide, BitVec.toNat_and, BitVec.toNat_ushiftRight,
    Nat.shiftRight_eq_div_pow]
  exact Nat.and_two_pow_sub_one_eq_mod _ 24

/-- The CARD34 formula joins disjoint fields (42_format_decode.md R149). -/
theorem card34_join_toNat (h l : Data) (hl : l.toNat < 2^31) : (((h &&& 0x3) <<< 30) ||| (l >>> 1)).toNat = h.toNat % 4 * 2^30 + l.toNat / 2 := by
  have h0 : ((h &&& 0x3) <<< 30) &&& (l >>> 1) = 0 := by
    apply BitVec.eq_of_getLsbD_eq
    intro i hi
    have hl' : ∀ j, 31 ≤ j → l.getLsbD j = false := by
      intro j hj
      rw [BitVec.getLsbD]
      exact Nat.testBit_lt_two_pow (lt_of_lt_of_le hl (Nat.pow_le_pow_right (by decide) hj))
    simp
    intro _ h30 _ _
    exact hl' _ (by omega)
  rw [← BitVec.add_eq_or_of_and_eq_zero _ _ h0]
  have : (h &&& 3).toNat = h.toNat % 4 := by
    rw [BitVec.toNat_and]; exact Nat.and_two_pow_sub_one_eq_mod _ 2
  simp only [BitVec.toNat_add, BitVec.toNat_shiftLeft, BitVec.toNat_ushiftRight, this, Nat.shiftLeft_eq, Nat.shiftRight_eq_div_pow]
  omega

/-! ### The rules -/

/-- The KEY8 rule in one expression. -/
theorem key8Rule_eq (now : Time) (d : DeviceState) (c k : Nibble) (hc : c = d.data_low.extractLsb' 4 4) (hk : k = d.data_low.extractLsb' 0 4) :
   key8Rule now d = if k = ~~~c then (.success (translateKey k) 8, { d with bit_count := 0, data_low := 0, data_high := 0, frame_type := 8, code := translateKey k })
     else (.invalid, { d with bit_count := 0, data_low := 0, data_high := 0, frame_type := 8, last_pulse_time := now }) := by
  unfold key8Rule
  rw [lowNibble_eq, highNibble_eq, ← hc, ← hk]
  by_cases h : k = ~~~c
  · simp [complementOk, h, DeviceState.clear]
  · simp [complementOk, h, DeviceState.clear, DeviceState.rearm]

/-- The card lengths go to the card rule. -/
theorem formatRule_card {d : DeviceState} (now : Time) (h : d.bit_count ∈ [24,26,32,34]) : formatRule now d.correct = cardRule d.correct := by
  have h1 : ¬ d.bit_count = 8 := by intro h'; rw [h'] at h; revert h; decide
  have h2 : ¬ d.bit_count = 4 := by intro h'; rw [h'] at h; revert h; decide
  simp [formatRule, h1, h2]

theorem formatRule_key8 {d : DeviceState} (now : Time) (h : d.bit_count = 8) : formatRule now d = key8Rule now d := by
  simp [formatRule, h]

theorem formatRule_key4 {d : DeviceState} (now : Time) (h : d.bit_count = 4) : formatRule now d = key4Rule d := by
  simp [formatRule, h]

end Machine

end Sys2Proof
end

