-- ==== Sys2Proof/Laws/Fetch.lean ====
section
/-! SUPPORT. What fetching and a step can answer, and that fetching leaves the device alone. -/

namespace Sys2Proof.Machine

/-- The device is the same one in the same record. -/
abbrev SameDevice (s t : State) : Prop := t.dev = s.dev ∧ t.initialised = s.initialised

/-- A poll and a pulse, in one of the two orders. -/
abbrev PollAndPulse (i j : Instr) : Prop :=
  ∃ now line ts, (i = .poll now ∧ j = pulseOn line ts) ∨ (i = pulseOn line ts ∧ j = .poll now)

/-- The instruction of a strobe vector is an operation. -/
theorem decodeStrobes_operation {v : Strobes} {ts now : Time} {i : Instr} (h : decodeStrobes v ts now = .instr i) :
    isOperation i = true := by
  unfold decodeStrobes at h
  split at h <;> cases h <;> rfl

theorem decode_accessor_operation {r : Accessor} {i : Instr} (h : decode (.accessor r) = .instr i) : isOperation i = true := by
  cases r <;> cases h <;> rfl

theorem pulseOn_operation (line : Line) (ts : Time) : isOperation (pulseOn line ts) = true := by cases line <;> rfl

theorem serialise_runTwo (now : Time) (line : Line) (ts : Time) (s : State) :
    ∃ i j, serialise now line ts s = .runTwo i j { s with draws := s.draws + 1 } ∧ PollAndPulse i j := by
  unfold serialise
  split
  · exact ⟨_, _, rfl, now, line, ts, .inl ⟨rfl, rfl⟩⟩
  · exact ⟨_, _, rfl, now, line, ts, .inr ⟨rfl, rfl⟩⟩

/-- Everything `fetch` can answer: one operation, a poll and a pulse, or no event, on the same device; or a refusal. -/
theorem fetch_cases (s : State) :
    (∃ i s', fetch s = .run i s' ∧ SameDevice s s' ∧ isOperation i = true) ∨
    (∃ i j s', fetch s = .runTwo i j s' ∧ SameDevice s s' ∧ PollAndPulse i j) ∨
    (∃ s', fetch s = .idle s' ∧ SameDevice s s' ∧ s'.ret = .nothing) ∨
    ∃ r, fetch s = .stop r := by
  unfold fetch
  split
  · exact .inr (.inr (.inl ⟨_, rfl, ⟨rfl, rfl⟩, rfl⟩))
  · next v ts now rest _ =>
    cases h : decode (.strobes v ts now) with
    | instr i => exact .inl ⟨i, _, rfl, ⟨rfl, rfl⟩, decodeStrobes_operation h⟩
    | idle => exact .inr (.inr (.inl ⟨_, rfl, ⟨rfl, rfl⟩, rfl⟩))
    | coincident now line ts =>
      obtain ⟨i, j, e, hp⟩ := serialise_runTwo now line ts { s with inputs := rest }
      exact .inr (.inl ⟨i, j, _, e, ⟨rfl, rfl⟩, hp⟩)
    | rejected r => cases r; exact .inr (.inr (.inr ⟨_, rfl⟩))
  · next r rest _ => cases r <;> exact .inl ⟨_, _, rfl, ⟨rfl, rfl⟩, rfl⟩
  · exact .inl ⟨_, _, rfl, ⟨rfl, rfl⟩, rfl⟩
  · exact .inr (.inr (.inr ⟨_, rfl⟩))

/-- Two events of an existing device complete. -/
theorem execTwo_of_initialised {s : State} (i j : Instr) (h : s.initialised = true) : execTwo i j s = .next
    { effect j (effect i s) with ret := (effect i s).ret.both (effect j (effect i s)).ret } := by
  rw [execTwo, exec_of_initialised i h]
  simp only []
  rw [exec_of_initialised j (effect_initialised i s h)]

/-- Without a device a poll and a pulse have no next state. -/
theorem execTwo_next {s t : State} {i j : Instr} (hp : PollAndPulse i j) (h : execTwo i j s = .next t) : s.initialised = true := by
  by_contra hn
  have hi : i ≠ .init := by
    obtain ⟨now, line, ts, ⟨rfl, -⟩ | ⟨rfl, -⟩⟩ := hp
    · simp
    · cases line <;> simp [pulseOn]
  rw [execTwo, exec_of_ne_init s hi, withDevice_before_init _ (by simpa using hn)] at h
  cases h

/-- Everything a step can answer with a next state: one operation, a poll and a pulse of an existing device, or nothing at all. -/
theorem step_next {s t : State} (h : step s = .next t) :
    (∃ i s', t = effect i s' ∧ SameDevice s s' ∧ isOperation i = true ∧ (i = .init ∨ s.initialised = true)) ∨
    (∃ i j s', t = { effect j (effect i s') with ret := (effect i s').ret.both (effect j (effect i s')).ret } ∧
      SameDevice s s' ∧ PollAndPulse i j ∧ s.initialised = true) ∨
    (SameDevice s t ∧ t.ret = .nothing) := by
  unfold step at h
  obtain ⟨i, s', hf, hs, ho⟩ | ⟨i, j, s', hf, hs, hp⟩ | ⟨s', hf, hs, hr⟩ | ⟨r, hf⟩ := fetch_cases s <;> rw [hf] at h
  · obtain ⟨ht, hin⟩ := exec_next h
    exact .inl ⟨i, s', ht, hs, ho, by rwa [hs.2] at hin⟩
  · have hi := execTwo_next hp h
    simp only [execTwo_of_initialised i j hi] at h
    cases h
    exact .inr (.inl ⟨i, j, s', rfl, hs, hp, by rwa [hs.2] at hi⟩)
  · cases h
    exact .inr (.inr ⟨hs, hr⟩)
  · cases h

end Sys2Proof.Machine
end

