-- ==== Sys2Proof/Laws/PerInstr.lean ====
section
/-! SUPPORT. Facts stated for every instruction, one lemma per constructor. -/

/-! ### Encoded width: the number of pulses or strobes the table gives the row (30_encoding.md R72, R92, R94) -/

namespace Sys2Proof.Laws.EncodedWidth

/-- The length of a frame row, 4 for a strobe vector, none for an accessor, which has no strobe. -/
def tableWidth : Instr → Option Nat
  | .init => some 4
  | .pulseA _ => some 4
  | .pulseB _ => some 4
  | .poll _ => some 4
  | .getCode => none
  | .getType => none
  | .key4 _ _ => some 4
  | .key8 _ _ _ => some 8
  | .card24 _ _ => some 24
  | .card26 _ _ _ _ => some 26
  | .card32 _ _ _ => some 32
  | .card34 _ _ _ _ => some 34
  | .noise length _ => some length

/-- How many bits a code word holds, the time buses not counted. -/
def wordWidth : CodeWord → Option Nat
  | .strobes _ _ _ => some 4
  | .accessor _ => none
  | .frame bits _ => some bits.length

/-- The encoder uses exactly the table's width. -/
def Statement (i : Instr) : Prop := wordWidth (encode i) = tableWidth i

theorem init : Statement .init := rfl
theorem pulseA (ts : Time) : Statement (.pulseA ts) := rfl
theorem pulseB (ts : Time) : Statement (.pulseB ts) := rfl
theorem poll (now : Time) : Statement (.poll now) := rfl
theorem getCode : Statement .getCode := rfl
theorem getType : Statement .getType := rfl
theorem key4 (k : Nibble) (now : Time) : Statement (.key4 k now) := by
  simp [Statement, encode, wordWidth, tableWidth, key4Bits]
theorem key8 (c k : Nibble) (now : Time) : Statement (.key8 c k now) := by
  simp [Statement, encode, wordWidth, tableWidth, key8Bits]
theorem card24 (id : BitVec 24) (now : Time) : Statement (.card24 id now) := by
  simp [Statement, encode, wordWidth, tableWidth, card24Bits]
theorem card26 (pl : Bool) (id : BitVec 24) (pt : Bool) (now : Time) : Statement (.card26 pl id pt now) := by
  simp [Statement, encode, wordWidth, tableWidth, card26Bits]
theorem card32 (x : Bool) (id : BitVec 31) (now : Time) : Statement (.card32 x id now) := by
  simp [Statement, encode, wordWidth, tableWidth, card32Bits]
theorem card34 (pl : Bool) (id : BitVec 32) (pt : Bool) (now : Time) : Statement (.card34 pl id pt now) := by
  simp [Statement, encode, wordWidth, tableWidth, card34Bits]
theorem noise (length : Nat) (now : Time) : Statement (.noise length now) := by
  simp [Statement, encode, wordWidth, tableWidth, noiseBits]

end Sys2Proof.Laws.EncodedWidth
end

