-- ==== Sys2Proof/Tests/Slice0.lean ====
section
/-! SUPPORT. Tests on single words and single steps, expected values from 95_test_vectors.md and the rules; then witnesses that the
hypotheses of the statements can be met. -/

namespace Sys2Proof.Tests

open Sys2Proof Sys2Proof.Machine

/-! ### Helpers -/

/-- A record as a state line of the test vectors writes it: `bc lo hi t code ft`. -/
def line (bc : Nat) (lo hi : Data) (t : Time) (code : Data) (ft : FrameType) : DeviceState :=
  { bit_count := bc, data_low := lo, data_high := hi, last_pulse_time := t, code := code, frame_type := ft }

/-- A device in use with nothing pending. -/
def inUse (d : DeviceState) : State := { State.reset with dev := d }

/-- The record and the return value an event leaves. -/
def after : Host.Outcome State Fault Refusal → Option (DeviceState × Ret)
  | .next t => some (t.dev, t.ret)
  | .fault _ => none
  | .refused _ => none

/-- The reason of a refusal. -/
def reason : Host.Outcome State Fault Refusal → Option Refusal
  | .next _ => none
  | .fault _ => none
  | .refused r => some r

/-- Powered up, no INIT yet. -/
def powerUp : State := { State.reset with initialised := false }

/-! ### WellFormed: ill-formed terms are refused -/

theorem test_wf_noise_of_legal_length_refused :
    [4, 8, 24, 26, 32, 34].all (fun n => !(Instr.noise n 0).wellFormed) = true := by decide
theorem test_wf_noise_of_illegal_length_accepted :
    [0, 3, 5, 7, 9, 23, 25, 27, 31, 33, 35, 100].all (fun n => (Instr.noise n 0).wellFormed) = true := by decide

/-! ### Decode: each constructor from a word written out from 30_encoding.md -/

theorem test_decode_init : decode (.strobes 0b1000 0 0) = .instr .init := by decide
theorem test_decode_init_ignores_other_strobes : decode (.strobes 0b1111 7 7) = .instr .init := by decide
theorem test_decode_pulse_a : decode (.strobes 0b0001 500 0) = .instr (.pulseA 500) := by decide
theorem test_decode_pulse_b : decode (.strobes 0b0010 500 0) = .instr (.pulseB 500) := by decide
theorem test_decode_poll : decode (.strobes 0b0100 0 32001) = .instr (.poll 32001) := by decide
theorem test_decode_no_event : decode (.strobes 0b0000 1 2) = .idle := by decide
theorem test_decode_both_lines : decode (.strobes 0b0011 1 2) = .rejected .bothLines := by decide
theorem test_decode_poll_with_pulse_b : decode (.strobes 0b0110 1 2) = .coincident 2 .b 1 := by decide
theorem test_decode_get_code : decode (.accessor .code) = .instr .getCode := by decide
theorem test_decode_get_type : decode (.accessor .frameType) = .instr .getType := by decide
/-- `KKKK` -/
theorem test_decode_key4 : decode (.frame (bitsFromDigits [1, 0, 1, 0]) 0) = .instr (.key4 0xA 0) := by decide
/-- `CCCCKKKK` -/
theorem test_decode_key8 : decode (.frame (bitsFromDigits [0, 1, 0, 0, 1, 0, 1, 1]) 0) = .instr (.key8 0x4 0xB 0) := by decide
/-- `I` 24 times -/
theorem test_decode_card24 :
    decode (.frame (bitsFromDigits [1, 0, 0, 0, 0, 0, 0, 0, 0, 0, 0, 0, 0, 0, 0, 0, 0, 0, 0, 0, 0, 0, 1, 0]) 0) =
      .instr (.card24 0x800002 0) := by decide
/-- `P`, `I` 24 times, `Q`: only the first data bit set (T26-4) -/
theorem test_decode_card26 :
    decode (.frame (bitsFromDigits [0, 1, 0, 0, 0, 0, 0, 0, 0, 0, 0, 0, 0, 0, 0, 0, 0, 0, 0, 0, 0, 0, 0, 0, 0, 0]) 0) =
      .instr (.card26 false 0x800000 false 0) := by decide
/-- `X`, `I` 31 times: only the first bit set (T32-2) -/
theorem test_decode_card32 :
    decode (.frame (true :: List.replicate 31 false) 0) = .instr (.card32 true 0 0) := by decide
/-- `P`, `I` 32 times, `Q`: `011` then 31 zeros (T34-5) -/
theorem test_decode_card34 :
    decode (.frame ([false, true, true] ++ List.replicate 31 false) 0) = .instr (.card34 false 0xC0000000 false 0) := by decide
/-- NOISE: 25 and 0 bits -/
theorem test_decode_noise :
    decode (.frame (List.replicate 25 true) 0) = .instr (.noise 25 0) ∧ decode (.frame [] 0) = .instr (.noise 0 0) := by decide

theorem test_table_words :
    decodeTableWord 8 0b0001 = some (.pulseA 0) ∧ decodeTableWord 8 0b1000 = some .init ∧
    decodeTableWord 8 0xE1 = some (.key8 0xE 0x1 0) ∧ decodeTableWord 4 0xB = some (.key4 0xB 0) ∧
    decodeTableWord 24 0xABCDEF = some (.card24 0xABCDEF 0) ∧ decodeTableWord 40 0x3BD5B7DDE = some (.card34 true 0xDEADBEEF false 0) ∧
    decodeTableWord 8 0b0011 = none ∧ decodeTableWord 0 0 = some (.noise 0 0) := by decide

/-- `FRAME(0101)@1000+2000` is `A@1000; B@3000; A@5000; B@7000` (TA-1). -/
theorem test_frame_trace :
    frameTrace (bitsFromDigits [0, 1, 0, 1]) 1000 2000 = [(.a, 1000), (.b, 3000), (.a, 5000), (.b, 7000)] := by decide

/-! ### One event -/

/-- 40_accumulate.md R101's worked example -/
theorem test_pulse_a : after (exec (.pulseA 500) (inUse (line 2 0x6 0 0 0 0))) = some (line 3 0xC 0 500 0 0, .nothing) := by decide
/-- TA-2: no carry at 31, the first carry at 32 -/
theorem test_pulse_a_first_carry :
    after (exec (.pulseA 63000) (inUse (line 31 0xFFFFFFFE 0 61000 0 0))) = some (line 32 0xFFFFFFFC 2 63000 0 0, .nothing) := by decide
/-- TA-2 -/
theorem test_pulse_b_no_carry_at_31 :
    after (exec (.pulseB 61000) (inUse (line 30 0x7FFFFFFE 0 59000 0 0))) = some (line 31 0xFFFFFFFE 0 61000 0 0, .nothing) := by decide
/-- P3 -/
theorem test_pulse_b_carry :
    after (exec (.pulseB 65000) (inUse (line 32 0xDEADBEEE 2 63000 0 0))) = some (line 33 0xBD5B7DDE 6 65000 0 0, .nothing) := by decide
/-- TQ-2 -/
theorem test_poll_not_ready_at_25000 :
    after (exec (.poll 32000) (inUse (line 4 0xA 0 7000 0 0))) = some (line 4 0xA 0 7000 0 0, .poll false) := by decide
/-- TQ-3, T4-1 -/
theorem test_poll_key4 :
    after (exec (.poll 32001) (inUse (line 4 0xA 0 7000 0 0))) = some (line 0 0 0 7000 5 4, .poll true) := by decide
/-- TQ-4: the host's clock went back -/
theorem test_poll_modular_elapsed :
    after (exec (.poll 50000) (inUse (line 4 0xA 0 106000 0 0))) = some (line 0 0 0 106000 5 4, .poll true) := by decide
/-- TL-2 -/
theorem test_poll_noise :
    after (exec (.poll 40000) (inUse (line 5 0x2A 0 9000 7 4))) = some (line 0 0 0 40000 7 4, .poll false) := by decide
/-- T8-2 -/
theorem test_poll_key8_success :
    after (exec (.poll 40001) (inUse (line 8 0x96 0 15000 0 0))) = some (line 0 0 0 15000 0xD 8, .poll true) := by decide
/-- P4: Invalid writes `frame_type` and the timer, not `code` -/
theorem test_poll_key8_invalid :
    after (exec (.poll 250000) (inUse (line 8 0x1C4 0 214000 0x7BB26E 26))) = some (line 0 0 0 250000 0x7BB26E 8, .poll false) := by
  decide
/-- T24-1 -/
theorem test_poll_card24 :
    after (exec (.poll 72001) (inUse (line 24 0x01579BDE 0 47000 0 0))) = some (line 0 0 0 47000 0xABCDEF 24, .poll true) := by decide
/-- T26-1, the source's fixture -/
theorem test_poll_card26 :
    after (exec (.poll 76001) (inUse (line 26 0x03A78002 0 51000 0 0))) = some (line 0 0 0 51000 15327232 26, .poll true) := by decide
/-- T32-4 -/
theorem test_poll_card32 :
    after (exec (.poll 88001) (inUse (line 32 0x2468ACF0 2 63000 0 0))) = some (line 0 0 0 63000 0x12345678 32, .poll true) := by decide
/-- T34-1 -/
theorem test_poll_card34 :
    after (exec (.poll 92001) (inUse (line 34 0x7AB6FBBC 0xE 67000 0 0))) = some (line 0 0 0 67000 0xDEADBEEF 34, .poll true) := by decide
theorem test_init :
    after (exec .init (inUse (line 5 0x2A 0 9000 7 4))) = some (line 0 0 0 0 0 0, .nothing) := by decide
/-- P1 -/
theorem test_get_code :
    after (exec .getCode (inUse (line 0 0 0 51000 0xE9E000 26))) = some (line 0 0 0 51000 0xE9E000 26, .code 0xE9E000) := by decide
theorem test_get_type :
    after (exec .getType (inUse (line 0 0 0 51000 0xE9E000 26))) = some (line 0 0 0 51000 0xE9E000 26, .type 26) := by decide
/-- T4-2 -/
theorem test_key4_row : after (exec (.key4 0xA 9) (inUse (line 0 0 0 7 0 0))) = some (line 0 0 0 7 0x1B 4, .poll true) := by decide
/-- T8-4 -/
theorem test_key8_row_invalid :
    after (exec (.key8 0xE 0x2 40001) (inUse (line 0 0 0 15000 3 0))) = some (line 0 0 0 40001 3 8, .poll false) := by decide
/-- T24-2 -/
theorem test_card24_row :
    after (exec (.card24 0xFFFFFF 9) (inUse (line 0 0 0 7 0 0))) = some (line 0 0 0 7 0xFFFFFF 24, .poll true) := by decide
/-- T26-3 with the last data bit set (T26-5) -/
theorem test_card26_row :
    after (exec (.card26 true 1 true 9) (inUse (line 0 0 0 7 0 0))) = some (line 0 0 0 7 1 26, .poll true) := by decide
/-- T32-1 -/
theorem test_card32_row :
    after (exec (.card32 true 0x7FFFFFFF 9) (inUse (line 0 0 0 7 0 0))) = some (line 0 0 0 7 0x7FFFFFFF 32, .poll true) := by decide
/-- T34-2 -/
theorem test_card34_row :
    after (exec (.card34 true 0xFFFFFFFF true 9) (inUse (line 0 0 0 7 0 0))) = some (line 0 0 0 7 0xFFFFFFFF 34, .poll true) := by decide
/-- TL-1 -/
theorem test_noise_row :
    after (exec (.noise 33 1000000) (inUse (line 0 0 0 7 3 4))) = some (line 0 0 0 1000000 3 4, .poll false) := by decide

/-! ### One step -/

theorem test_step_idle : after (step State.reset) = some (line 0 0 0 0 0 0, .nothing) := by decide
theorem test_step_pulse :
    after (step { State.reset with inputs := [.edge 0b0010 3000 0] }) = some (line 1 2 0 3000 0 0, .nothing) := by decide
theorem test_step_both_lines : reason (step { State.reset with inputs := [.edge 0b0111 1 2] }) = some .bothLines := by decide
theorem test_step_failed_construction :
    reason (step { State.reset with inputs := [.constructionFailed] }) = some .constructionFailed := by decide
theorem test_step_before_init : reason (step { powerUp with inputs := [.edge 0b0100 0 9] }) = some .beforeInit := by decide
theorem test_step_placed_frame : after (step (State.reset.withFetchWord 24 0xABCDEF)) =
    some (line 0 0 0 (0 - 25001) 0xABCDEF 24, .poll true) := by decide
/-- A poll's Boolean is gone after the next edge, whatever it strobes (10_state.md R31). -/
theorem test_step_idle_returns_nothing :
    after (step { inUse (line 0 0 0 7000 5 4) with ret := .poll true, inputs := [.edge 0b0000 0 0] }) = some (line 0 0 0 7000 5 4, .nothing) ∧
    after (step { inUse (line 0 0 0 7000 5 4) with ret := .poll true }) = some (line 0 0 0 7000 5 4, .nothing) := by decide
/-- TQ-3 on the ports: `poll_ok` in the poll's cycle, with the old registers; TQ-2: not at 25000; never without `poll` -/
theorem test_ports :
    ({ inUse (line 4 0xA 0 7000 0 0) with inputs := [.edge 0b0100 0 32001] } : State).ports = { poll_ok := true, code := 0, frame_type := 0 } ∧
    ({ inUse (line 4 0xA 0 7000 0 0) with inputs := [.edge 0b0100 0 32000] } : State).ports.poll_ok = false ∧
    ({ inUse (line 0 0 0 7000 5 4) with ret := .poll true, inputs := [.edge 0b0000 0 32001] } : State).ports =
      { poll_ok := false, code := 5, frame_type := 4 } := by decide
/-- An edge with POLL and a pulse takes both in one step. -/
theorem test_step_coincident_takes_both :
    ∃ t, step { State.reset with inputs := [.edge 0b0101 5 9] } = .next t ∧ t.draws = 1 ∧ t.inputs = [] ∧ t.dev.bit_count = 1 := by
  have hdec : fetch { State.reset with inputs := [.edge 0b0101 5 9] } = serialise 9 .a 5 State.reset := rfl
  unfold step
  rw [hdec]
  unfold serialise
  split
  · next h =>
    split at h <;> cases h
  · next h =>
    split at h <;> cases h <;> exact ⟨_, execTwo_of_initialised _ _ rfl, rfl, rfl, rfl⟩
  · next h => split at h <;> cases h
  · next h => split at h <;> cases h

/-! ### Witnesses: the hypotheses of the statements can be met, clause by clause at their boundaries -/

/-- EventsBeforeInitAreRefused -/
theorem witness_before_init : powerUp.initialised = false ∧ Instr.getCode ≠ .init ∧ Instr.noise 3 0 ≠ .init := by decide
/-- FirstPollAfterResetIsFalse, both clauses -/
theorem witness_first_poll : (25000 : Time).toNat ≤ 25000 ∧ 25000 < (25001 : Time).toNat := by decide
/-- PulseAShiftsInAZero, PulseBShiftsInAOne, GetCodeIsPure, PollReturnsTrueOnlyOnSuccess, ResultEncodingAndPollOk, AccessorsDoNotSeePulses,
KeyRowsCheckAndTranslate, CardRowsDeliverTheirId, NoiseRowClearsAndRearms: a device in use, with and without a carry -/
theorem witness_in_use : (inUse (line 30 0x7FFFFFFE 0 9 3 4)).initialised = true ∧ (inUse (line 31 0xFFFFFFFE 0 9 3 4)).initialised = true := by
  decide
/-- AccumulatorHoldsTheRun, Key8SucceedsExactlyOnComplementaryNibbles, IdleDeviceIsInvisibleToPolls, OverrunEndsAsNoise: a clear
accumulator beside a used code -/
theorem witness_clear : (inUse (line 0 0 0 9 3 4)).initialised = true ∧ (inUse (line 0 0 0 9 3 4)).dev.Holds [] :=
  ⟨rfl, by simp [DeviceState.Holds, inUse, line]⟩
theorem witness_eight_pulses : (frameTrace (bitsFromDigits [1, 1, 1, 0, 0, 0, 0, 1]) 1000 2000).length = 8 ∧
    frameValue (bitsOfPulses (frameTrace (bitsFromDigits [1, 1, 1, 0, 0, 0, 0, 1]) 1000 2000)) = 0xE1 := by decide
/-- OverrunEndsAsNoise -/
theorem witness_overrun : 34 < (frameTrace (List.replicate 35 true) 0 10).length := by decide
/-- EveryStepKeepsTheInvariant, CarryGuardIsRedundantWhenReachable, LookaheadBitsAreZero (third clause): a state in mid-frame meets the invariant -/
theorem witness_inv : (inUse (line 4 0xA 0 7000 0 26)).Inv :=
  ⟨⟨bitsFromDigits [0, 1, 0, 1], by decide⟩, by decide⟩
theorem witness_inv_step : ∃ t, step { inUse (line 4 0xA 0 7000 0 26) with inputs := [.edge 0b0100 0 32001] } = .next t := ⟨_, rfl⟩
/-- LookaheadBitsAreZero: first and second clause, the same state; a carry into `data_high` -/
theorem witness_lookahead :
    (line 31 0xFFFFFFFE 0 9 3 4).data_low.getLsbD 0 = false ∧ (line 31 0xFFFFFFFE 0 9 3 4).data_high.getLsbD 0 = false ∧
    after (step { inUse (line 31 0xFFFFFFFE 0 9 3 4) with inputs := [.edge 0b0010 10 0] }) = some (line 32 0xFFFFFFFE 2 10 3 4, .nothing) := by
  decide
/-- CorrectedBuffersHoldTheFrame: 31, 32 and 34 bits -/
theorem witness_holds :
    (line 31 0x80000000 0 0 0 0).Holds (true :: List.replicate 30 false) ∧
    (line 32 0 2 0 0 0).Holds (true :: List.replicate 31 false) ∧
    (line 34 0 8 0 0 0).Holds (true :: List.replicate 33 false) := by decide
/-- QuietTestDecidesWhetherThePollGoesOn, ChecksOfAPollAreTakenInOrder: both sides of the threshold -/
theorem witness_quiet :
    ((32000 : Time) - (line 4 0xA 0 7000 0 0).last_pulse_time).toNat ≤ 25000 ∧
    25001 ≤ ((32001 : Time) - (line 4 0xA 0 7000 0 0).last_pulse_time).toNat := by decide
/-- IllegalLengthIsNoise: the lengths around the legal ones -/
theorem witness_illegal_lengths : [0, 3, 5, 7, 9, 23, 25, 27, 31, 33, 35].all (fun n => !([4, 8, 24, 26, 32, 34].contains n)) = true := by
  decide
/-- Key8IsCheckedAndDecoded: a good and a bad check -/
theorem witness_key8 :
    25000 < ((40001 : Time) - (line 8 0x1C2 0 15000 0 0).last_pulse_time).toNat ∧ (line 8 0x1C2 0 15000 0 0).bit_count = 8 ∧
    ((0x1C2 : Data) >>> 1).extractLsb' 0 4 = ~~~(((0x1C2 : Data) >>> 1).extractLsb' 4 4) ∧
    ((0x1C4 : Data) >>> 1).extractLsb' 0 4 ≠ ~~~(((0x1C4 : Data) >>> 1).extractLsb' 4 4) := by decide
/-- Key4AlwaysDecodes, Card24DeliversAllBits, Card26StripsBothParityBits, Card32LosesItsFirstBit, Card34ReassemblesTheId (first clauses) -/
theorem witness_legal_lengths_quiet : [4, 24, 26, 32, 34].all (fun n =>
    (inUse (line n 2 0 7000 0 0)).initialised && decide (25000 < ((32001 : Time) - (inUse (line n 2 0 7000 0 0)).dev.last_pulse_time).toNat)) =
      true := by decide
/-- the same, second clauses: a frame of each length held by a device whose line is quiet -/
theorem witness_frames_held :
    ((line 0 0 0 7000 0 0).loadFrame (List.replicate 4 true)).Holds (List.replicate 4 true) ∧
    ((line 0 0 0 7000 0 0).loadFrame (List.replicate 24 true)).Holds (List.replicate 24 true) ∧
    ((line 0 0 0 7000 0 0).loadFrame (List.replicate 26 true)).Holds (List.replicate 26 true) ∧
    ((line 0 0 0 7000 0 0).loadFrame (List.replicate 32 true)).Holds (List.replicate 32 true) ∧
    ((line 0 0 0 7000 0 0).loadFrame (List.replicate 34 true)).Holds (List.replicate 34 true) ∧
    ((line 0 0 0 7000 0 0).loadFrame (List.replicate 34 true)).last_pulse_time = 7000 ∧
    25000 < ((32001 : Time) - 7000).toNat :=
  ⟨loadFrame_holds _ _, loadFrame_holds _ _, loadFrame_holds _ _, loadFrame_holds _ _, loadFrame_holds _ _, rfl, by decide⟩
/-- GetTypeIsPureAndNeverNegative: after an Invalid poll -/
theorem witness_get_type : (inUse (line 0 0 0 250000 0x7BB26E 8)).initialised = true ∧ (inUse (line 0 0 0 250000 0x7BB26E 8)).Inv :=
  ⟨rfl, ⟨[], by simp [DeviceState.Holds, inUse, line]⟩, by decide⟩
/-- ParityBitsAreNeverVerified: the bits of T26-6 and T26-7, which differ in both parity bits, and the last timestamps of their traces -/
theorem witness_parity :
    bitsOf 26 0x2F764DD ≠ bitsOf 26 0x0F764DC ∧
    (bitsOf 26 0x2F764DD).tail.dropLast = (bitsOf 26 0x0F764DC).tail.dropLast := ⟨by decide, rfl⟩
theorem witness_parity_times :
    (frameTrace (bitsOf 26 0x2F764DD) 1000 2000).length = 26 ∧
    (frameTrace (bitsOf 26 0x2F764DD) 1000 2000).getLast?.map Prod.snd =
      (frameTrace (bitsOf 26 0x0F764DC) 1000 2000).getLast?.map Prod.snd := ⟨rfl, rfl⟩
/-- and a quiet poll after them -/
theorem witness_parity_quiet : 25000 < ((76001 : Time) - 51000).toNat := by decide
/-- FrameIsReportedOnce: TP-1 -/
theorem witness_once : (∀ e ∈ [(20000 : Time), 32000], (e - (line 4 0xA 0 7000 0 0).last_pulse_time).toNat ≤ 25000) ∧
    25000 < ((32001 : Time) - (line 4 0xA 0 7000 0 0).last_pulse_time).toNat := by
  refine ⟨fun e he => ?_, by decide⟩
  simp only [List.mem_cons, List.not_mem_nil, or_false] at he
  obtain rfl | rfl := he <;> decide
/-- FramesAreJoinedWithoutAQuietPoll: one pulse, then a poll 25000 later -/
theorem witness_join : ∃ t, run (pulses [(.b, 7000)]) State.reset = .next t ∧ ((32000 : Time) - t.dev.last_pulse_time).toNat ≤ 25000 :=
  ⟨_, rfl, by decide⟩
theorem witness_join_start : State.reset.initialised = true ∧ State.reset.dev.Holds [] := ⟨rfl, zero_holds⟩
/-- MonotoneTimesMakeElapsedPlain: equal times are allowed -/
theorem witness_monotone : State.reset.dev.last_pulse_time ≤ (0 : Time) ∧ MonotoneFrom 0 ([.pulseB 7, .getCode, .pulseA 7] ++ [.poll 7]) := by
  refine ⟨by decide, ?_⟩
  simp [MonotoneFrom, timeOf]
theorem witness_monotone_run : ∃ t, run [.pulseB 7, .getCode, .pulseA 7] State.reset = .next t := ⟨_, rfl⟩
/-- DecodeOfEncodeIsTheInstruction -/
theorem witness_well_formed : (Instr.card34 true 0xDEADBEEF false 9).wellFormed = true ∧ (Instr.noise 35 9).wellFormed = true := by decide
/-- EncodeOfDecodedFrameIsTheFrame -/
theorem witness_legal_frame : (bitsFromDigits [1, 0, 1, 1]).length ∈ [4, 8, 24, 26, 32, 34] := by decide
/-- StrobeVectorTable: the last clause, and the first -/
theorem witness_strobes : ({ State.reset with inputs := [.edge 0b0011 1 2] } : State).inputs = .edge 0b0011 1 2 :: [] ∧
    (0b1011 : Strobes).getLsbD 3 = true := by decide
/-- StepRunsTheDecodedInstruction, clause by clause -/
theorem witness_step :
    decode (.strobes 0b0100 0 9) = .instr (.poll 9) ∧ decode (.accessor .code) = .instr .getCode ∧ decode (.strobes 0 3 4) = .idle ∧
    State.reset.inputs = [] ∧ ({ State.reset with inputs := [.constructionFailed] } : State).inputs = .constructionFailed :: [] := by decide
/-- QuietPollRunsTheFrameInstruction -/
theorem witness_quiet_poll :
    (inUse (line 4 0xA 0 7000 0 0)).dev.Holds (bitsFromDigits [0, 1, 0, 1]) ∧
    25000 < ((32001 : Time) - (inUse (line 4 0xA 0 7000 0 0)).dev.last_pulse_time).toNat := by decide
/-- PlacedWordIsRunByTheNextStep: an operation and a frame -/
theorem witness_placed : State.reset.initialised = true ∧ decodeTableWord 8 0b0100 = some (.poll 0) ∧
    decodeTableWord 26 0x01D3C001 = some (.card26 false 0xE9E000 true 0) := by decide
/-- CoincidentStrobesAreSerialised, PollOkIsCombinational -/
theorem witness_coincident : (0b0100 ||| strobesOf .a : Strobes) = 0b0101 ∧ (0b0100 ||| strobesOf .b : Strobes) = 0b0110 := by decide
/-- EdgesDuringAPollAreDeferredOrDropped -/
theorem witness_slow_poll : ({ State.reset with inputs := [.slowPoll 9 [(.a, 10), (.b, 11)]] } : State).inputs =
    .slowPoll 9 [(.a, 10), (.b, 11)] :: [] := rfl
/-- StepCompletesWithinTheContract -/
theorem witness_contract : (∀ v ts now rest, State.reset.inputs = .edge v ts now :: rest → v ≠ 0b0011 ∧ v ≠ 0b0111) ∧
    ∀ rest, State.reset.inputs ≠ .constructionFailed :: rest := ⟨by simp, by simp⟩
/-- RegistersChangeOnlyByTheirWriters: a poll, and the step that takes it, that changes `code` and one that changes `frame_type` without success -/
theorem witness_writers :
    after (step { inUse (line 4 0xA 0 7000 0 0) with inputs := [.edge 0b0100 0 32001] }) = some (line 0 0 0 7000 5 4, .poll true) ∧
    after (step { inUse (line 8 0x1C4 0 15000 3 4) with inputs := [.edge 0b0100 0 40001] }) = some (line 0 0 0 40001 3 8, .poll false) := by
  decide
/-- PollResultIsNotLatched, ResultEncodingAndPollOk, PollOkIsCombinational (last clause): a step that returns a poll's Boolean -/
theorem witness_poll_result : ∃ t, step { inUse (line 4 0xA 0 7000 0 0) with inputs := [.edge 0b0100 0 32001] } = .next t ∧ t.ret = .poll true :=
  ⟨_, rfl, rfl⟩
/-- PollOkIsCombinational: a read, an ignored poll strobe, both lines -/
theorem witness_ports : ({ inUse (line 4 0xA 0 7000 0 0) with inputs := [.read .code] } : State).ports.poll_ok = false ∧
    ({ inUse (line 4 0xA 0 7000 0 0) with inputs := [.edge 0b1100 0 32001] } : State).ports.poll_ok = false ∧
    ({ inUse (line 4 0xA 0 7000 0 0) with inputs := [.edge 0b0111 0 32001] } : State).ports.poll_ok = false := by decide
/-- RegistersRefineTheFormatTable: a state in mid-frame and the view it shows -/
theorem witness_shows : (inUse (line 4 0xA 0 7000 0 26)).Shows
    { bits := bitsFromDigits [0, 1, 0, 1], last := 7000, code := 0, frame_type := 26, ret := .nothing } :=
  ⟨by decide, rfl, rfl, rfl, rfl⟩
/-- SaturatingCounterIsIndistinguishable -/
theorem witness_saturating : 35 ≤ Config.bitcountSat ∧ ∃ t, run [.pulseB 1, .poll 9] (inUse (line 80 0xFFFFFFFE 0xFFFFFFFE 0 0 0)) = .next t :=
  ⟨by decide, _, rfl⟩
/-- the same run on the default realisation: the counter stays at its ceiling -/
theorem test_saturating_counter_stops :
    after (execSatDefault (.pulseB 1) (inUse (line 63 0xFFFFFFFE 0xFFFFFFFE 0 0 0))) =
      some (line 63 0xFFFFFFFE 0xFFFFFFFE 1 0 0, .nothing) := by decide

end Sys2Proof.Tests
end

section
/-! SUPPORT. 10_state.md R33 and R34: what reset and INIT leave, and the open ingestion gate after it. -/

namespace Sys2Proof.Machine

@[simp] theorem effect_init_dev (s : State) : (effect .init s).dev = DeviceState.zero := rfl

/-- An existing device takes a pulse on either line, whatever its record (10_state.md R34: the gate is open between events). -/
theorem exec_pulseOn_of_initialised {s : State} (line : Line) (ts : Time) (h : s.initialised = true) :
    exec (pulseOn line ts) s = .next { s with dev := s.dev.onPulse line ts, ret := .nothing } := by
  rw [exec_of_initialised _ h, effect_pulseOn]

/-- Settles O1: the record of reset and INIT is `DeviceState.zero`, and the device exists after reset, so a pulse is counted. -/
theorem resetAndInitLeaveEveryFieldZero : Obligations.ResetAndInitLeaveEveryFieldZero := by
  refine ⟨?reset, fun s => ?init, fun line ts => ?pulse⟩
  case reset => rfl
  case init => exact ⟨effect .init s, exec_init s, effect_init_dev s⟩
  case pulse =>
    refine ⟨_, exec_pulseOn_of_initialised line ts State.reset_initialised, ?_⟩
    calc (State.reset.dev.onPulse line ts).bit_count
        = DeviceState.zero.bit_count + 1 := by rw [DeviceState.onPulse_bit_count, State.reset_dev]
      _ = 1 := rfl

end Sys2Proof.Machine
end

section
/-! SUPPORT. 30_encoding.md R80: the two keys that are translated, and the identity on every other nibble. -/

namespace Sys2Proof.Machine

/-- The `*` key is ENTER. -/
@[simp] theorem translateKey_star : translateKey 0xB#4 = 0x0D#32 := rfl

/-- The `#` key is ESCAPE. -/
@[simp] theorem translateKey_hash : translateKey 0xA#4 = 0x1B#32 := rfl

/-- Every other key is itself, zero-extended (42_format_decode.md R143). -/
theorem translateKey_of_ne {k : Nibble} (hstar : k ≠ 0xB) (hhash : k ≠ 0xA) : translateKey k = k.setWidth 32 := by
  rw [translateKey, if_neg hstar, if_neg hhash]

/-- Settles O16: the rows of `*` and `#` are their own lemmas, and the other fourteen rows are the identity. -/
theorem keyTranslationTable : Obligations.KeyTranslationTable := by
  unfold Obligations.KeyTranslationTable
  simp (disch := decide) [translateKey_of_ne]

end Sys2Proof.Machine
end

section
/-! SUPPORT. 40_accumulate.md R101 and R102: the strobe vector of each line and what R100's pulse reduces to there. -/

namespace Sys2Proof.Machine

/-- The strobe vector of a line is that line's pulse, whatever stands on the poll's time bus (30_encoding.md R90, R92). -/
theorem decode_strobesOf (line : Line) (ts now : Time) :
    decode (.strobes (strobesOf line) ts now) = .instr (pulseOn line ts) := by
  cases line <;> rfl

namespace DeviceState

/-- On line A the OR of the bit drops out of R100 (R101). -/
theorem onPulse_a (d : DeviceState) (ts : Time) : d.onPulse .a ts =
    { d with
      bit_count := d.bit_count + 1
      data_high := if d.bit_count + 1 > 31 then (d.data_high ||| (d.data_low >>> 31)) <<< 1 else d.data_high
      data_low := d.data_low <<< 1
      last_pulse_time := ts } := by
  have hlow : (d.onPulse .a ts).data_low = d.data_low <<< 1 := by simp [Line.bit]
  rw [← hlow]
  rfl

/-- On line B the bit is 1 (R102). -/
theorem onPulse_b (d : DeviceState) (ts : Time) : d.onPulse .b ts =
    { d with
      bit_count := d.bit_count + 1
      data_high := if d.bit_count + 1 > 31 then (d.data_high ||| (d.data_low >>> 31)) <<< 1 else d.data_high
      data_low := (d.data_low ||| 1) <<< 1
      last_pulse_time := ts } := rfl

end DeviceState

/-- Settles O5: `0001` is the vector of line A, and an existing device takes the pulse as `onPulse_a` says. -/
theorem pulseAShiftsInAZero : Obligations.PulseAShiftsInAZero := by
  refine ⟨decode_strobesOf .a, fun ts s h => ?_⟩
  rw [← DeviceState.onPulse_a]
  exact exec_pulseOn_of_initialised .a ts h

/-- Settles O6: `0010` is the vector of line B, and an existing device takes the pulse as `onPulse_b` says. -/
theorem pulseBShiftsInAOne : Obligations.PulseBShiftsInAOne := by
  refine ⟨decode_strobesOf .b, fun ts s h => ?_⟩
  rw [← DeviceState.onPulse_b]
  exact exec_pulseOn_of_initialised .b ts h

end Sys2Proof.Machine
end

section
/-! SUPPORT. 41_quiet_and_length.md R121, R124 and R125: the two results that carry no frame, and polls of an empty accumulator. -/

namespace Sys2Proof.Machine

/-- A poll that is not quiet leaves the record alone (41_quiet_and_length.md R121). -/
theorem frameDecode_of_not_quiet {d : DeviceState} {now : Time} (hearly : (now - d.last_pulse_time).toNat ≤ 25000) :
    frameDecode d now = (.notReady, d) := by
  obtain ⟨-, heq⟩ | ⟨hquiet, -⟩ | ⟨hquiet, -⟩ := frameDecode_cases d now
  · exact heq
  · omega
  · omega

/-- A quiet poll of an illegal length clears and re-arms; the correction before it leaves no trace (41_quiet_and_length.md R124). -/
theorem frameDecode_of_illegal_length {d : DeviceState} {now : Time} (hquiet : 25000 < (now - d.last_pulse_time).toNat)
    (hlen : d.bit_count ∉ [4, 8, 24, 26, 32, 34]) : frameDecode d now = (.noise, d.clear.rearm now) := by
  obtain ⟨hearly, -⟩ | ⟨-, -, heq⟩ | ⟨-, hlegal, -⟩ := frameDecode_cases d now
  · omega
  · exact heq
  · exact absurd hlegal hlen

/-- Settles O12: the decoder takes the Noise action, and POLL reports it as false. -/
theorem illegalLengthIsNoise : Obligations.IllegalLengthIsNoise := by
  intro now s hinit hquiet hlen
  have hdecode := frameDecode_of_illegal_length hquiet hlen
  refine ⟨by rw [hdecode], ?_⟩
  calc exec (.poll now) s
      = .next (s.finishPoll (frameDecode s.dev now)) := exec_of_initialised _ hinit
    _ = .next (s.finishPoll (.noise, s.dev.clear.rearm now)) := by rw [hdecode]

/-! ### Polls of an empty accumulator -/

/-- The idle timer's reference after a poll at `now` of an empty accumulator: NotReady keeps it, Noise moves it (41_quiet_and_length.md R125). -/
def idleTimer (last now : Time) : Time := if (now - last).toNat ≤ 25000 then last else now

theorem loadFrame_nil (d : DeviceState) : d.loadFrame [] = d.clear := rfl

/-- An empty accumulator is already clear. -/
theorem clear_of_holds_nil {d : DeviceState} (h : d.Holds []) : d.clear = d := by
  rw [← loadFrame_nil, loadFrame_of_holds h]

/-- Re-arming touches no field of the accumulator. -/
theorem rearm_holds {d : DeviceState} {bits : List Bool} (h : d.Holds bits) (now : Time) : (d.rearm now).Holds bits :=
  holds_congr rfl rfl rfl h

/-- A poll of an empty accumulator returns false and touches the timer only: NotReady or, 0 being no legal length, Noise. -/
theorem effect_poll_of_holds_nil {s : State} (now : Time) (h : s.dev.Holds []) :
    effect (.poll now) s = { s with dev := s.dev.rearm (idleTimer s.dev.last_pulse_time now), ret := .poll false } := by
  by_cases hearly : (now - s.dev.last_pulse_time).toNat ≤ 25000
  · rw [effect, frameDecode_of_not_quiet hearly, idleTimer, if_pos hearly]
    rfl
  · have hlen : s.dev.bit_count ∉ [4, 8, 24, 26, 32, 34] := by
      rw [((holds_nil_iff _).1 h).1]
      decide
    rw [effect, frameDecode_of_illegal_length (Nat.lt_of_not_le hearly) hlen, clear_of_holds_nil h, idleTimer, if_neg hearly]
    rfl

/-- The record after any polls of an empty accumulator: each poll finds the accumulator still empty. -/
theorem polls_dev_of_holds_nil (nows : List Time) {s : State} (h : s.dev.Holds []) :
    ((nows.map .poll).foldl (fun s i => effect i s) s).dev = s.dev.rearm (nows.foldl idleTimer s.dev.last_pulse_time) := by
  induction nows generalizing s with
  | nil => rfl
  | cons now nows ih =>
    rw [List.map_cons, List.foldl_cons, effect_poll_of_holds_nil now h]
    exact ih (rearm_holds h _)

/-- The last of them returns false. -/
theorem polls_ret_of_holds_nil {nows : List Time} {s : State} (h : s.dev.Holds []) (hne : nows ≠ []) :
    ((nows.map .poll).foldl (fun s i => effect i s) s).ret = .poll false := by
  obtain ⟨early, now, rfl⟩ := List.eq_nil_or_concat' nows |>.resolve_left hne
  have hempty : ((early.map .poll).foldl (fun s i => effect i s) s).dev.Holds [] := by
    rw [polls_dev_of_holds_nil early h]
    exact rearm_holds h _
  rw [List.map_append, List.foldl_append, List.map_singleton, List.foldl_cons, List.foldl_nil, effect_poll_of_holds_nil now hempty]

/-- Settles O31: an existing device completes the polls, and `idleTimer` folded over their times is all that they leave. -/
theorem idleDeviceIsInvisibleToPolls : Obligations.IdleDeviceIsInvisibleToPolls := by
  intro nows s hinit hempty
  exact ⟨_, run_of_initialised _ hinit, polls_ret_of_holds_nil hempty, polls_dev_of_holds_nil nows hempty⟩

end Sys2Proof.Machine
end

section
/-! SUPPORT. 42_format_decode.md R141 and R144 to R149: what a quiet poll of each legal length decodes, from the registers and from the
frame value. -/

namespace Sys2Proof.Machine

/-! ### Quiet polls of a legal length -/

/-- The record after a Success: accumulator clear, code and length written, the idle timer kept. -/
def DeviceState.delivered (d : DeviceState) (code : Data) (frame_type : FrameType) : DeviceState :=
  { d.clear with code := code, frame_type := frame_type }

/-- A quiet poll of a legal length goes on to the format's rule (41_quiet_and_length.md R120). -/
theorem frameDecode_of_legal_length {d : DeviceState} {now : Time} (hquiet : 25000 < (now - d.last_pulse_time).toNat)
    (hlen : d.bit_count ∈ [4, 8, 24, 26, 32, 34]) : frameDecode d now = formatRule now d.correct := by
  obtain ⟨hearly, -⟩ | ⟨-, hillegal, -⟩ | ⟨-, -, heq⟩ := frameDecode_cases d now
  · omega
  · exact absurd hlen hillegal
  · exact heq

/-- KEY8, both outcomes: the length is written in either, the timer re-armed in the second only (R141). -/
theorem frameDecode_key8 {d : DeviceState} {now : Time} {c k : Nibble} (hquiet : 25000 < (now - d.last_pulse_time).toNat)
    (hlen : d.bit_count = 8) (hc : c = (d.data_low >>> 1).extractLsb' 4 4) (hk : k = (d.data_low >>> 1).extractLsb' 0 4) :
    frameDecode d now = if k = ~~~c then (.success (translateKey k) 8, d.delivered (translateKey k) 8)
      else (.invalid, { d.clear with frame_type := 8, last_pulse_time := now }) := by
  rw [frameDecode_of_legal_length hquiet (by simp [hlen]), formatRule_key8 (d := d.correct) now hlen,
    key8Rule_eq now d.correct c k hc hk]
  rfl

/-- KEY4 delivers the translated low nibble (R144). -/
theorem frameDecode_key4 {d : DeviceState} {now : Time} (hquiet : 25000 < (now - d.last_pulse_time).toNat)
    (hlen : d.bit_count = 4) : frameDecode d now =
      (.success (translateKey ((d.data_low >>> 1).extractLsb' 0 4)) 4,
        d.delivered (translateKey ((d.data_low >>> 1).extractLsb' 0 4)) 4) := by
  rw [frameDecode_of_legal_length hquiet (by simp [hlen]), formatRule_key4 (d := d.correct) now hlen, key4Rule, lowNibble_eq]
  rfl

/-- A card of `n` bits delivers what `extract_card_id` takes out of the corrected buffers (R145). -/
theorem frameDecode_card {d : DeviceState} {now : Time} {n : Nat} {code : Data} (hcard : n ∈ [24, 26, 32, 34])
    (hquiet : 25000 < (now - d.last_pulse_time).toNat) (hlen : d.bit_count = n)
    (hcode : extractCardId d.correct.data_high (d.data_low >>> 1) n = code) :
    frameDecode d now = (.success code (BitVec.ofNat 8 n), d.delivered code (BitVec.ofNat 8 n)) := by
  subst hlen hcode
  have hlegal : d.bit_count ∈ [4, 8, 24, 26, 32, 34] := List.mem_cons_of_mem _ (List.mem_cons_of_mem _ hcard)
  rw [frameDecode_of_legal_length hquiet hlegal, formatRule_card now hcard]
  rfl

theorem extractCardId_card26 (high low : Data) : extractCardId high low 26 = (low &&& 0x1FFFFFE) >>> 1 := rfl

theorem extractCardId_card34 (high low : Data) : extractCardId high low 34 = ((high &&& 0x3) <<< 30) ||| (low >>> 1) := rfl

/-! ### The corrected buffers and the frame value -/

theorem field_toNat (w lo v : Nat) : (field w lo v).toNat = v / 2 ^ lo % 2 ^ w := by
  rw [field, BitVec.toNat_ofNat, Nat.shiftRight_eq_div_pow]

/-- The corrected `data_low` is the last 31 bits received (40_accumulate.md R106, 41_quiet_and_length.md R122). -/
theorem corrected_low_toNat {d : DeviceState} {bits : List Bool} (h : d.Holds bits) :
    (d.data_low >>> 1).toNat = frameValue bits % 2 ^ 31 := by
  obtain ⟨-, hlow, -⟩ := h
  rw [BitVec.toNat_ushiftRight, hlow, Nat.shiftRight_eq_div_pow]
  omega

/-- `data_high` shifted by one is the 31 bits received before those. -/
theorem corrected_high_toNat {d : DeviceState} {bits : List Bool} (h : d.Holds bits) :
    (d.data_high >>> 1).toNat = frameValue bits / 2 ^ 31 % 2 ^ 31 := by
  obtain ⟨-, -, hhigh⟩ := h
  rw [BitVec.toNat_ushiftRight, hhigh, Nat.shiftRight_eq_div_pow]
  omega

/-- The low nibble is `V[3:0]` (R144). -/
theorem corrected_low_nibble_eq_field {d : DeviceState} {bits : List Bool} (h : d.Holds bits) :
    (d.data_low >>> 1).extractLsb' 0 4 = field 4 0 (frameValue bits) := by
  apply BitVec.eq_of_toNat_eq
  rw [extractLsb_toNat, corrected_low_toNat h, field_toNat]
  omega

/-- CARD24 has room for its whole value (R146). -/
theorem corrected_low_eq_field24 {d : DeviceState} {bits : List Bool} (hlen : bits.length = 24) (h : d.Holds bits) :
    d.data_low >>> 1 = (field 24 0 (frameValue bits)).setWidth 32 := by
  have hlt := frameValue_lt bits
  rw [hlen] at hlt
  apply BitVec.eq_of_toNat_eq
  rw [corrected_low_toNat h, BitVec.toNat_setWidth, field_toNat]
  omega

/-- CARD32 has room for 31 of its 32 bits (R148). -/
theorem corrected_low_eq_field31 {d : DeviceState} {bits : List Bool} (h : d.Holds bits) :
    d.data_low >>> 1 = (field 31 0 (frameValue bits)).setWidth 32 := by
  apply BitVec.eq_of_toNat_eq
  rw [corrected_low_toNat h, BitVec.toNat_setWidth, field_toNat]
  omega

/-- CARD26's mask and shift select `V[24:1]` (R147). -/
theorem card26_mask_eq_field {d : DeviceState} {bits : List Bool} (h : d.Holds bits) :
    ((d.data_low >>> 1) &&& 0x1FFFFFE) >>> 1 = (field 24 1 (frameValue bits)).setWidth 32 := by
  apply BitVec.eq_of_toNat_eq
  rw [card26_mask_toNat, corrected_low_toNat h, BitVec.toNat_setWidth, field_toNat]
  omega

/-- CARD34's two bits of `data_high` are `V[32:31]`, so the join is `V[32:1]` (R149). -/
theorem card34_join_eq_field {d : DeviceState} {bits : List Bool} (h : d.Holds bits) :
    (((d.data_high >>> 1) &&& 0x3) <<< 30) ||| ((d.data_low >>> 1) >>> 1) = field 32 1 (frameValue bits) := by
  have hlow := corrected_low_toNat h
  apply BitVec.eq_of_toNat_eq
  rw [card34_join_toNat _ _ (by omega), corrected_high_toNat h, hlow, field_toNat]
  omega

/-! ### The obligations -/

/-- The poll of an existing device is `decode` and the poll's end (43_controller.md R170). -/
theorem exec_poll_of_frameDecode {s : State} {now : Time} {r : DecodeResult × DeviceState} (hinit : s.initialised = true)
    (hdecode : frameDecode s.dev now = r) : exec (.poll now) s = .next (s.finishPoll r) := by
  rw [← hdecode]
  exact exec_of_initialised _ hinit

/-- A format that always succeeds, said twice: where a quiet accumulator of its length delivers the code `ofRegisters`, and that is
`ofValue` of the frame value, the poll delivers either. -/
theorem poll_delivers {n : Nat} {frame_type : FrameType} {ofRegisters : DeviceState → Data} {ofValue : Nat → Data}
    (hdecode : ∀ now d, 25000 < (now - d.last_pulse_time).toNat → d.bit_count = n →
      frameDecode d now = (.success (ofRegisters d) frame_type, d.delivered (ofRegisters d) frame_type))
    (hvalue : ∀ d bits, bits.length = n → d.Holds bits → ofRegisters d = ofValue (frameValue bits)) :
    (∀ (now : Time) (s : State), s.initialised = true → 25000 < (now - s.dev.last_pulse_time).toNat →
      s.dev.bit_count = n → exec (.poll now) s = .next
        { s with dev := s.dev.delivered (ofRegisters s.dev) frame_type, ret := .poll true }) ∧
    ∀ (now : Time) (s : State) (bits : List Bool), s.initialised = true → 25000 < (now - s.dev.last_pulse_time).toNat →
      bits.length = n → s.dev.Holds bits → exec (.poll now) s = .next
        { s with dev := s.dev.delivered (ofValue (frameValue bits)) frame_type, ret := .poll true } := by
  refine ⟨fun now s hinit hquiet hlen => ?registers, fun now s bits hinit hquiet hbits hholds => ?value⟩
  case registers => exact exec_poll_of_frameDecode hinit (hdecode now s.dev hquiet hlen)
  case value =>
    have hlen : s.dev.bit_count = n := hholds.1.trans hbits
    rw [← hvalue s.dev bits hbits hholds]
    exact exec_poll_of_frameDecode hinit (hdecode now s.dev hquiet hlen)

/-- Settles O13: `frameDecode_key8` at both outcomes of the complement check. -/
theorem key8IsCheckedAndDecoded : Obligations.Key8IsCheckedAndDecoded := by
  intro now s c k hinit hquiet hlen hc hk
  have hdecode := frameDecode_key8 hquiet hlen hc hk
  rw [exec_poll_of_frameDecode hinit hdecode, hdecode]
  by_cases hcheck : k = ~~~c
  · simp only [if_pos hcheck, true_and]
    rfl
  · simp only [if_neg hcheck, true_and]
    rfl

/-- Settles O15: the low nibble, translated. -/
theorem key4AlwaysDecodes : Obligations.Key4AlwaysDecodes :=
  poll_delivers (ofValue := fun v => translateKey (field 4 0 v))
    (fun _ _ => frameDecode_key4)
    (fun _ _ _ hholds => congrArg translateKey (corrected_low_nibble_eq_field hholds))

/-- Settles O17: the corrected `data_low` is the whole value of 24 bits. -/
theorem card24DeliversAllBits : Obligations.Card24DeliversAllBits :=
  poll_delivers (ofValue := fun v => (field 24 0 v).setWidth 32)
    (fun _ _ hquiet hlen => frameDecode_card (by decide) hquiet hlen (extractCardId_low (by decide) (by decide)))
    (fun _ _ => corrected_low_eq_field24)

/-- Settles O18: the mask and the shift drop both parity bits. -/
theorem card26StripsBothParityBits : Obligations.Card26StripsBothParityBits :=
  poll_delivers (ofValue := fun v => (field 24 1 v).setWidth 32)
    (fun _ _ hquiet hlen => frameDecode_card (by decide) hquiet hlen (extractCardId_card26 _ _))
    (fun _ _ _ => card26_mask_eq_field)

/-- Settles O19: the corrected `data_low` is 31 of the 32 bits, and `data_high` is not read. -/
theorem card32LosesItsFirstBit : Obligations.Card32LosesItsFirstBit :=
  poll_delivers (ofValue := fun v => (field 31 0 v).setWidth 32)
    (fun _ _ hquiet hlen => frameDecode_card (by decide) hquiet hlen (extractCardId_low (by decide) (by decide)))
    (fun _ _ _ => corrected_low_eq_field31)

/-- Settles O20: 34 exceeds 32, so `data_high` is corrected too before it is joined. -/
theorem card34ReassemblesTheId : Obligations.Card34ReassemblesTheId := by
  have hhigh : ∀ d : DeviceState, d.bit_count = 34 → d.correct.data_high = d.data_high >>> 1 := by
    intro d hlen
    rw [DeviceState.correct_data_high, if_pos (by omega)]
  refine poll_delivers (ofValue := field 32 1) (fun now d hquiet hlen => ?registers) (fun _ _ _ => card34_join_eq_field)
  case registers => exact frameDecode_card (by decide) hquiet hlen (by rw [extractCardId_card34, hhigh d hlen])

end Sys2Proof.Machine
end

section
/-! SUPPORT. 43_controller.md R172, R176 and R177: what a poll returns and leaves, result by result, and the two accessors. -/

namespace Sys2Proof.Machine

/-! ### POLL -/

/-- Every legal length ends in Success with that length, but for a KEY8 that fails its check (42_format_decode.md R140). -/
theorem frameDecode_legal_result {d : DeviceState} {now : Time} (hquiet : 25000 < (now - d.last_pulse_time).toNat)
    (hlen : d.bit_count ∈ [4, 8, 24, 26, 32, 34]) :
    frameDecode d now = (.invalid, { d.clear with frame_type := 8, last_pulse_time := now }) ∨
    ∃ c, frameDecode d now = (.success c (BitVec.ofNat 8 d.bit_count), d.delivered c (BitVec.ofNat 8 d.bit_count)) := by
  obtain hkey4 | hlen := List.mem_cons.1 hlen
  · rw [hkey4]
    exact .inr ⟨_, frameDecode_key4 hquiet hkey4⟩
  obtain hkey8 | hcard := List.mem_cons.1 hlen
  · rw [frameDecode_key8 hquiet hkey8 rfl rfl, hkey8]
    split
    · exact .inr ⟨_, rfl⟩
    · exact .inl rfl
  · exact .inr ⟨_, frameDecode_card hcard hquiet rfl rfl⟩

/-- The four results of `decode`, each with the record it leaves (60_exceptions.md R191 to R194). -/
theorem frameDecode_results (d : DeviceState) (now : Time) :
    frameDecode d now = (.notReady, d) ∨
    frameDecode d now = (.noise, d.clear.rearm now) ∨
    frameDecode d now = (.invalid, { d.clear with frame_type := 8, last_pulse_time := now }) ∨
    ∃ c, frameDecode d now = (.success c (BitVec.ofNat 8 d.bit_count), d.delivered c (BitVec.ofNat 8 d.bit_count)) := by
  obtain ⟨-, hnotReady⟩ | ⟨-, -, hnoise⟩ | ⟨hquiet, hlen, -⟩ := frameDecode_cases d now
  · exact .inl hnotReady
  · exact .inr (.inl hnoise)
  · exact .inr (.inr (frameDecode_legal_result hquiet hlen))

/-- Settles O22: `frameDecode_results` names the result and the record, and POLL of an existing device stores the one and reports the other. -/
theorem pollReturnsTrueOnlyOnSuccess : Obligations.PollReturnsTrueOnlyOnSuccess := by
  intro now s hinit
  refine ⟨_, exec_poll_of_frameDecode hinit rfl, hinit, rfl, rfl, ?_⟩
  rw [State.finishPoll_ret, State.finishPoll_dev]
  obtain hdecode | hdecode | hdecode | ⟨c, hdecode⟩ := frameDecode_results s.dev now <;> rw [hdecode]
  case inl => exact ⟨rfl, rfl⟩
  case inr.inl => exact ⟨rfl, rfl⟩
  case inr.inr.inl => exact ⟨rfl, rfl⟩
  case inr.inr.inr => exact ⟨rfl, rfl, rfl⟩

/-! ### The accessors -/

/-- Settles O28: GET_CODE on an existing device answers the register and keeps the rest of the state. -/
theorem getCodeIsPure : Obligations.GetCodeIsPure :=
  ⟨rfl, fun _ hinit => ⟨exec_of_initialised .getCode hinit, rfl⟩⟩

/-- The values `frame_type` takes lie below the sign bit of its 8 bits, so they are read as they stand (10_state.md R26). -/
theorem legalTypes_map_toInt : legalTypes.map BitVec.toInt = [0, 4, 8, 24, 26, 32, 34] := rfl

/-- Settles O29: GET_TYPE answers the register, and the invariant makes it one of `legalTypes`. -/
theorem getTypeIsPureAndNeverNegative : Obligations.GetTypeIsPureAndNeverNegative := by
  refine ⟨rfl, fun s hinit => ⟨exec_of_initialised .getType hinit, rfl, ?signed⟩⟩
  rintro ⟨-, hlegal⟩
  rw [← legalTypes_map_toInt]
  exact List.mem_map_of_mem hlegal

end Sys2Proof.Machine
end

section
/-! SUPPORT. 60_exceptions.md R200: the fixed order of a poll's checks, and the one result that each leaves. -/

namespace Sys2Proof.Machine

/-- Only a key frame of 8 bits can fail: a legal length other than 8 ends in Success (60_exceptions.md R193). -/
theorem frameDecode_success_of_legal_ne_eight {d : DeviceState} {now : Time} (hquiet : 25000 < (now - d.last_pulse_time).toNat)
    (hlen : d.bit_count ∈ [4, 8, 24, 26, 32, 34]) (hne : d.bit_count ≠ 8) :
    ∃ c f, (frameDecode d now).1 = .success c f := by
  obtain hkey4 | hrest := List.mem_cons.1 hlen
  · exact ⟨_, _, congrArg Prod.fst (frameDecode_key4 hquiet hkey4)⟩
  · have hcard : d.bit_count ∈ [24, 26, 32, 34] := (List.mem_cons.1 hrest).resolve_left hne
    exact ⟨_, _, congrArg Prod.fst (frameDecode_card hcard hquiet rfl rfl)⟩

/-- The third check, which a quiet poll of a legal length reaches: it fails, and the result is Invalid, or it does not, and the result is
Success. -/
theorem frameDecode_complement_check {d : DeviceState} {now : Time} (hquiet : 25000 < (now - d.last_pulse_time).toNat)
    (hlen : d.bit_count ∈ [4, 8, 24, 26, 32, 34]) :
    ((d.bit_count = 8 ∧ (d.data_low >>> 1).extractLsb' 0 4 ≠ ~~~((d.data_low >>> 1).extractLsb' 4 4)) ∧
      (frameDecode d now).1 = .invalid) ∨
    (¬(d.bit_count = 8 ∧ (d.data_low >>> 1).extractLsb' 0 4 ≠ ~~~((d.data_low >>> 1).extractLsb' 4 4)) ∧
      ∃ c f, (frameDecode d now).1 = .success c f) := by
  by_cases hkey8 : d.bit_count = 8
  · have hdecode := frameDecode_key8 hquiet hkey8 rfl rfl
    by_cases hcheck : (d.data_low >>> 1).extractLsb' 0 4 = ~~~((d.data_low >>> 1).extractLsb' 4 4)
    · rw [if_pos hcheck] at hdecode
      exact .inr ⟨fun hfails => hfails.2 hcheck, _, _, congrArg Prod.fst hdecode⟩
    · rw [if_neg hcheck] at hdecode
      exact .inl ⟨⟨hkey8, hcheck⟩, congrArg Prod.fst hdecode⟩
  · exact .inr ⟨fun hfails => hkey8 hfails.1, frameDecode_success_of_legal_ne_eight hquiet hlen hkey8⟩

/-- Settles O23: a poll ends at the first check that applies; there the result is the one of that check, and the conditions of the other two
clauses fail. -/
theorem checksOfAPollAreTakenInOrder : Obligations.ChecksOfAPollAreTakenInOrder := by
  intro d now
  by_cases hearly : (now - d.last_pulse_time).toNat ≤ 25000
  · have hnotReady : (frameDecode d now).1 = .notReady := congrArg Prod.fst (frameDecode_of_not_quiet hearly)
    rw [hnotReady]
    exact ⟨iff_of_true rfl hearly, iff_of_false nofun fun h => hearly.not_gt h.1, iff_of_false nofun fun h => hearly.not_gt h.1⟩
  have hquiet : 25000 < (now - d.last_pulse_time).toNat := Nat.lt_of_not_le hearly
  by_cases hlen : d.bit_count ∈ [4, 8, 24, 26, 32, 34]
  · obtain ⟨hfails, hinvalid⟩ | ⟨hpasses, c, f, hsuccess⟩ := frameDecode_complement_check hquiet hlen
    · rw [hinvalid]
      exact ⟨iff_of_false nofun hearly, iff_of_false nofun fun h => h.2 hlen, iff_of_true rfl ⟨hquiet, hfails⟩⟩
    · rw [hsuccess]
      exact ⟨iff_of_false nofun hearly, iff_of_false nofun fun h => h.2 hlen, iff_of_false nofun fun h => hpasses h.2⟩
  · have hnoise : (frameDecode d now).1 = .noise := congrArg Prod.fst (frameDecode_of_illegal_length hquiet hlen)
    have hne : d.bit_count ≠ 8 := fun hkey8 => hlen (by simp [hkey8])
    rw [hnoise]
    exact ⟨iff_of_false nofun hearly, iff_of_true rfl ⟨hquiet, hlen⟩, iff_of_false nofun fun h => hne h.2.1⟩

end Sys2Proof.Machine
end

section
/-! SUPPORT. 30_encoding.md sections 1 to 3 and 5: the decoder row by row, and that decoder and encoder undo one another. -/

namespace Sys2Proof.Machine

/-! ### The decoder, one length at a time -/

theorem decodeFrame_of_length_four {bits : List Bool} (now : Time) (h : bits.length = 4) :
    decodeFrame bits now = .key4 (field 4 0 (frameValue bits)) now := by simp [decodeFrame, h]

theorem decodeFrame_of_length_eight {bits : List Bool} (now : Time) (h : bits.length = 8) :
    decodeFrame bits now = .key8 (field 4 4 (frameValue bits)) (field 4 0 (frameValue bits)) now := by simp [decodeFrame, h]

theorem decodeFrame_of_length_24 {bits : List Bool} (now : Time) (h : bits.length = 24) :
    decodeFrame bits now = .card24 (field 24 0 (frameValue bits)) now := by simp [decodeFrame, h]

theorem decodeFrame_of_length_26 {bits : List Bool} (now : Time) (h : bits.length = 26) : decodeFrame bits now =
    .card26 ((frameValue bits).testBit 25) (field 24 1 (frameValue bits)) ((frameValue bits).testBit 0) now := by
  simp [decodeFrame, h]

theorem decodeFrame_of_length_32 {bits : List Bool} (now : Time) (h : bits.length = 32) :
    decodeFrame bits now = .card32 ((frameValue bits).testBit 31) (field 31 0 (frameValue bits)) now := by simp [decodeFrame, h]

theorem decodeFrame_of_length_34 {bits : List Bool} (now : Time) (h : bits.length = 34) : decodeFrame bits now =
    .card34 ((frameValue bits).testBit 33) (field 32 1 (frameValue bits)) ((frameValue bits).testBit 0) now := by
  simp [decodeFrame, h]

/-! ### A row's bits give back its fields -/

theorem field_eq_of_value {w lo v : Nat} {x : BitVec w} (h : v / 2 ^ lo % 2 ^ w = x.toNat) : field w lo v = x :=
  BitVec.eq_of_toNat_eq ((field_toNat w lo v).trans h)

theorem testBit_eq_of_value {v n : Nat} {b : Bool} (h : v / 2 ^ n % 2 = b.toNat) : v.testBit n = b := by
  rw [Nat.testBit_eq_decide_div_mod_eq, h]
  cases b <;> rfl

@[simp] theorem field_key4Bits (k : Nibble) : field 4 0 (frameValue (key4Bits k)) = k := by
  rw [key4Bits, frameValue_bitsOf_toNat]
  exact field_eq_of_value (by omega)

@[simp] theorem check_field_key8Bits (c k : Nibble) : field 4 4 (frameValue (key8Bits c k)) = c := by
  rw [key8Bits_value]
  exact field_eq_of_value (by omega)

@[simp] theorem key_field_key8Bits (c k : Nibble) : field 4 0 (frameValue (key8Bits c k)) = k := by
  rw [key8Bits_value]
  exact field_eq_of_value (by omega)

@[simp] theorem field_card24Bits (id : BitVec 24) : field 24 0 (frameValue (card24Bits id)) = id := by
  rw [card24Bits, frameValue_bitsOf_toNat]
  exact field_eq_of_value (by omega)

@[simp] theorem field_card26Bits (pl : Bool) (id : BitVec 24) (pt : Bool) : field 24 1 (frameValue (card26Bits pl id pt)) = id := by
  have := Bool.toNat_lt pt
  rw [card26Bits_value]
  exact field_eq_of_value (by omega)

@[simp] theorem field_card32Bits (x : Bool) (id : BitVec 31) : field 31 0 (frameValue (card32Bits x id)) = id := by
  rw [card32Bits_value]
  exact field_eq_of_value (by omega)

@[simp] theorem field_card34Bits (pl : Bool) (id : BitVec 32) (pt : Bool) : field 32 1 (frameValue (card34Bits pl id pt)) = id := by
  have := Bool.toNat_lt pt
  rw [card34Bits_value]
  exact field_eq_of_value (by omega)

@[simp] theorem key4Bits_length (k : Nibble) : (key4Bits k).length = 4 := bitsOf_length _ _
@[simp] theorem key8Bits_length (c k : Nibble) : (key8Bits c k).length = 8 := by simp [key8Bits]
@[simp] theorem card24Bits_length (id : BitVec 24) : (card24Bits id).length = 24 := bitsOf_length _ _
@[simp] theorem card26Bits_length (pl : Bool) (id : BitVec 24) (pt : Bool) : (card26Bits pl id pt).length = 26 := by simp [card26Bits]
@[simp] theorem card32Bits_length (x : Bool) (id : BitVec 31) : (card32Bits x id).length = 32 := by simp [card32Bits]
@[simp] theorem card34Bits_length (pl : Bool) (id : BitVec 32) (pt : Bool) : (card34Bits pl id pt).length = 34 := by simp [card34Bits]
@[simp] theorem noiseBits_length (n : Nat) : (noiseBits n).length = n := List.length_replicate

/-- Both parity bits stand at the ends of the value. -/
theorem decodeFrame_card26Bits (pl : Bool) (id : BitVec 24) (pt : Bool) (now : Time) :
    decodeFrame (card26Bits pl id pt) now = .card26 pl id pt now := by
  have := Bool.toNat_lt pl
  have := Bool.toNat_lt pt
  have hpl : (frameValue (card26Bits pl id pt)).testBit 25 = pl := testBit_eq_of_value (by rw [card26Bits_value]; omega)
  have hpt : (frameValue (card26Bits pl id pt)).testBit 0 = pt := testBit_eq_of_value (by rw [card26Bits_value]; omega)
  rw [decodeFrame_of_length_26 now (card26Bits_length pl id pt), field_card26Bits, hpl, hpt]

theorem decodeFrame_card32Bits (x : Bool) (id : BitVec 31) (now : Time) :
    decodeFrame (card32Bits x id) now = .card32 x id now := by
  have := Bool.toNat_lt x
  have hx : (frameValue (card32Bits x id)).testBit 31 = x := testBit_eq_of_value (by rw [card32Bits_value]; omega)
  rw [decodeFrame_of_length_32 now (card32Bits_length x id), field_card32Bits, hx]

theorem decodeFrame_card34Bits (pl : Bool) (id : BitVec 32) (pt : Bool) (now : Time) :
    decodeFrame (card34Bits pl id pt) now = .card34 pl id pt now := by
  have := Bool.toNat_lt pl
  have := Bool.toNat_lt pt
  have hpl : (frameValue (card34Bits pl id pt)).testBit 33 = pl := testBit_eq_of_value (by rw [card34Bits_value]; omega)
  have hpt : (frameValue (card34Bits pl id pt)).testBit 0 = pt := testBit_eq_of_value (by rw [card34Bits_value]; omega)
  rw [decodeFrame_of_length_34 now (card34Bits_length pl id pt), field_card34Bits, hpl, hpt]

/-- A NOISE is well formed when its length is no frame's. -/
theorem noise_wellFormed_iff (n : Nat) (now : Time) : (Instr.noise n now).wellFormed = true ↔ n ∉ [4, 8, 24, 26, 32, 34] := by
  rw [← isLegalLength_iff, Instr.wellFormed, Bool.not_eq_true', Bool.not_eq_true]

/-- Settles O37: an operation's word is its row of the strobe table; a frame row's bits have its length and give back its fields. -/
theorem decodeOfEncodeIsTheInstruction : Obligations.DecodeOfEncodeIsTheInstruction := by
  intro i hwf
  cases i with
  | init => rfl
  | pulseA ts => rfl
  | pulseB ts => rfl
  | poll now => rfl
  | getCode => rfl
  | getType => rfl
  | key4 k now => rw [encode, decode, decodeFrame_of_length_four now (key4Bits_length k), field_key4Bits]
  | key8 c k now =>
    rw [encode, decode, decodeFrame_of_length_eight now (key8Bits_length c k), check_field_key8Bits, key_field_key8Bits]
  | card24 id now => rw [encode, decode, decodeFrame_of_length_24 now (card24Bits_length id), field_card24Bits]
  | card26 pl id pt now => rw [encode, decode, decodeFrame_card26Bits]
  | card32 x id now => rw [encode, decode, decodeFrame_card32Bits]
  | card34 pl id pt now => rw [encode, decode, decodeFrame_card34Bits]
  | noise n now =>
    have hlen := (noise_wellFormed_iff n now).1 hwf
    rw [encode, decode, decodeFrame_illegal now (by rwa [noiseBits_length]), noiseBits_length]

/-! ### A frame's fields give back its bits -/

/-- A value is its first bit, its middle and its last bit. -/
theorem bitsOf_between_parity_bits (n v : Nat) : v.testBit (n + 1) :: bitsOf n (v >>> 1) ++ [v.testBit 0] = bitsOf (n + 2) v := by
  rw [show n + 2 = (n + 1) + 1 from rfl, bitsOf_add (n + 1) 1 v, bitsOf, Nat.testBit_shiftRight, Nat.add_comm 1 n]
  rfl

theorem bitsOf_field_zero (w v : Nat) : bitsOf w (field w 0 v).toNat = bitsOf w v := by
  rw [bitsOf_field, Nat.shiftRight_zero]

theorem bitsOf_frameValue_of_length {bits : List Bool} {n : Nat} (h : bits.length = n) : bitsOf n (frameValue bits) = bits := by
  rw [← h, bitsOf_frameValue]

/-- A legal frame is what its own row encodes to: every format's fields cover the frame, in order of reception (30_encoding.md R79). -/
theorem encode_decodeFrame {bits : List Bool} (now : Time) (h : bits.length ∈ [4, 8, 24, 26, 32, 34]) :
    encode (decodeFrame bits now) = .frame bits now := by
  simp only [List.mem_cons, List.not_mem_nil, or_false] at h
  obtain h | h | h | h | h | h := h <;> have hbits := bitsOf_frameValue_of_length h
  · rw [decodeFrame_of_length_four now h, encode, key4Bits, bitsOf_field_zero, hbits]
  · rw [decodeFrame_of_length_eight now h, encode, key8Bits, bitsOf_field, bitsOf_field_zero, ← bitsOf_add, hbits]
  · rw [decodeFrame_of_length_24 now h, encode, card24Bits, bitsOf_field_zero, hbits]
  · rw [decodeFrame_of_length_26 now h, encode, card26Bits, bitsOf_field, bitsOf_between_parity_bits, hbits]
  · rw [decodeFrame_of_length_32 now h, encode, card32Bits, bitsOf_field_zero, ← bitsOf, hbits]
  · rw [decodeFrame_of_length_34 now h, encode, card34Bits, bitsOf_field, bitsOf_between_parity_bits, hbits]

/-- Every row but NOISE is well formed, and the decoder answers NOISE for an illegal length only. -/
theorem decodeFrame_wellFormed (bits : List Bool) (now : Time) : (decodeFrame bits now).wellFormed = true := by
  unfold decodeFrame
  dsimp only
  split_ifs
  case neg => exact (noise_wellFormed_iff _ now).2 (by simp [*])
  all_goals rfl

/-- Settles O38: the two lemmas before it. -/
theorem encodeOfDecodedFrameIsTheFrame : Obligations.EncodeOfDecodedFrameIsTheFrame :=
  fun bits now => ⟨decodeFrame_wellFormed bits now, encode_decodeFrame now⟩

/-- Settles O40: each word is its instruction's own code word, which O37 decodes. -/
theorem sampleWordsDecode : Obligations.SampleWordsDecode :=
  ⟨decodeOfEncodeIsTheInstruction (.pulseB 500) rfl,
    decodeOfEncodeIsTheInstruction (.key4 0xB 9) rfl,
    decodeOfEncodeIsTheInstruction (.key8 0xE 0x1 9) rfl,
    decodeOfEncodeIsTheInstruction (.card24 0xABCDEF 9) rfl,
    decodeOfEncodeIsTheInstruction (.card26 false 0xE9E000 true 9) rfl,
    decodeOfEncodeIsTheInstruction (.card32 true 0x12345678 9) rfl,
    decodeOfEncodeIsTheInstruction (.card34 true 0xDEADBEEF false 9) rfl,
    congrArg Decoded.instr (decodeFrame_illegal (bits := bitsFromDigits [1, 0, 1, 0, 1]) 9 (by decide))⟩

end Sys2Proof.Machine
end

section
/-! SUPPORT. 30_encoding.md R79 and R94: a frame row writes what the table's columns say, and a quiet poll is the row of the bits received. -/

namespace Sys2Proof.Machine

/-! ### The frame rows as instructions -/

/-- The record a frame row leaves by the table's columns: nothing held, and the timer re-armed when no code is delivered. -/
def DeviceState.afterRow (d : DeviceState) (i : Instr) (now : Time) : DeviceState :=
  { d.clear with
    last_pulse_time := if (rowCode i).isSome then d.last_pulse_time else now
    code := (rowCode i).getD d.code
    frame_type := (rowType i).getD d.frame_type }

/-- The state a frame row leaves. -/
def State.afterRow (s : State) (i : Instr) (now : Time) : State :=
  { s with dev := s.dev.afterRow i now, ret := .poll (rowCode i).isSome }

/-- A card row delivers what `extract_card_id` takes out of its own bits. -/
theorem finishPoll_cardRule_loadFrame {s : State} {bits : List Bool} {code : Data}
    (hcode : extractCardId (s.dev.loadFrame bits).correct.data_high ((s.dev.loadFrame bits).data_low >>> 1) bits.length = code) :
    s.finishPoll (cardRule (s.dev.loadFrame bits).correct) =
      { s with dev := s.dev.delivered code (BitVec.ofNat 8 bits.length), ret := .poll true } := by
  subst hcode
  rfl

theorem effect_key4 (k : Nibble) (now : Time) (s : State) : effect (.key4 k now) s = s.afterRow (.key4 k now) now := by
  rw [effect, key4Rule, lowNibble_eq, DeviceState.correct_data_low, corrected_low_nibble_eq_field (loadFrame_holds s.dev _),
    field_key4Bits]
  rfl

/-- The check nibble of a held frame is `V[7:4]` (42_format_decode.md R141). -/
theorem corrected_high_nibble_eq_field {d : DeviceState} {bits : List Bool} (h : d.Holds bits) :
    (d.data_low >>> 1).extractLsb' 4 4 = field 4 4 (frameValue bits) := by
  apply BitVec.eq_of_toNat_eq
  rw [extractLsb_toNat, corrected_low_toNat h, field_toNat]
  omega

theorem effect_key8 (c k : Nibble) (now : Time) (s : State) : effect (.key8 c k now) s = s.afterRow (.key8 c k now) now := by
  have hholds := loadFrame_holds s.dev (key8Bits c k)
  have hc : c = (s.dev.loadFrame (key8Bits c k)).correct.data_low.extractLsb' 4 4 := by
    rw [DeviceState.correct_data_low, corrected_high_nibble_eq_field hholds, check_field_key8Bits]
  have hk : k = (s.dev.loadFrame (key8Bits c k)).correct.data_low.extractLsb' 0 4 := by
    rw [DeviceState.correct_data_low, corrected_low_nibble_eq_field hholds, key_field_key8Bits]
  rw [effect, key8Rule_eq now _ c k hc hk, State.afterRow, DeviceState.afterRow, rowCode]
  split <;> rfl

theorem effect_card24 (id : BitVec 24) (now : Time) (s : State) : effect (.card24 id now) s = s.afterRow (.card24 id now) now := by
  refine (finishPoll_cardRule_loadFrame (code := id.setWidth 32) ?_).trans (by rw [card24Bits_length]; rfl)
  rw [extractCardId_low (by simp) (by simp), corrected_low_eq_field24 (card24Bits_length id) (loadFrame_holds _ _), field_card24Bits]

theorem effect_card26 (pl : Bool) (id : BitVec 24) (pt : Bool) (now : Time) (s : State) :
    effect (.card26 pl id pt now) s = s.afterRow (.card26 pl id pt now) now := by
  refine (finishPoll_cardRule_loadFrame (code := id.setWidth 32) ?_).trans (by rw [card26Bits_length]; rfl)
  rw [card26Bits_length, extractCardId_card26, card26_mask_eq_field (loadFrame_holds _ _), field_card26Bits]

theorem effect_card32 (x : Bool) (id : BitVec 31) (now : Time) (s : State) :
    effect (.card32 x id now) s = s.afterRow (.card32 x id now) now := by
  refine (finishPoll_cardRule_loadFrame (code := id.setWidth 32) ?_).trans (by rw [card32Bits_length]; rfl)
  rw [extractCardId_low (by simp) (by simp), corrected_low_eq_field31 (loadFrame_holds _ _), field_card32Bits]

theorem effect_card34 (pl : Bool) (id : BitVec 32) (pt : Bool) (now : Time) (s : State) :
    effect (.card34 pl id pt now) s = s.afterRow (.card34 pl id pt now) now := by
  refine (finishPoll_cardRule_loadFrame (code := id) ?_).trans (by rw [card34Bits_length]; rfl)
  rw [card34Bits_length, extractCardId_card34, DeviceState.correct_data_high, if_pos (by simp), card34_join_eq_field (loadFrame_holds _ _),
    field_card34Bits]

/-- Every frame row writes what the table's columns say (30_encoding.md R79). -/
theorem effect_frame_row {i : Instr} {now : Time} (hrow : isOperation i = false) (htime : timeOf i = some now) (s : State) :
    effect i s = s.afterRow i now := by
  cases i <;> cases hrow <;> cases htime
  case key4.refl.refl k => exact effect_key4 k now s
  case key8.refl.refl c k => exact effect_key8 c k now s
  case card24.refl.refl id => exact effect_card24 id now s
  case card26.refl.refl pl id pt => exact effect_card26 pl id pt now s
  case card32.refl.refl x id => exact effect_card32 x id now s
  case card34.refl.refl pl id pt => exact effect_card34 pl id pt now s
  case noise.refl.refl n => rfl

/-- An existing device completes the row. -/
theorem exec_frame_row {i : Instr} {now : Time} {s : State} (hrow : isOperation i = false) (htime : timeOf i = some now)
    (hinit : s.initialised = true) : exec i s = .next (s.afterRow i now) := by
  rw [exec_of_initialised i hinit, effect_frame_row hrow htime]

/-- Settles O25: the columns of the key rows; KEY8 has its two outcomes in the column "code". -/
theorem keyRowsCheckAndTranslate : Obligations.KeyRowsCheckAndTranslate := by
  refine ⟨fun k now s hinit => exec_frame_row rfl rfl hinit, fun c k now s hinit => ?_⟩
  rw [exec_frame_row rfl rfl hinit, State.afterRow, DeviceState.afterRow, rowCode]
  split <;> rfl

/-- Settles O26: the columns of the card rows name the ID alone. -/
theorem cardRowsDeliverTheirId : Obligations.CardRowsDeliverTheirId :=
  ⟨fun _ _ _ hinit => exec_frame_row rfl rfl hinit, fun _ _ _ _ _ hinit => exec_frame_row rfl rfl hinit,
    fun _ _ _ _ hinit => exec_frame_row rfl rfl hinit, fun _ _ _ _ _ hinit => exec_frame_row rfl rfl hinit⟩

/-- Settles O27: the columns of NOISE are empty. -/
theorem noiseRowClearsAndRearms : Obligations.NoiseRowClearsAndRearms :=
  fun _ _ _ hinit _ => exec_frame_row rfl rfl hinit

/-! ### A quiet poll is the row of the bits received -/

/-- Every frame decodes to a frame row at the poll's time. -/
theorem decodeFrame_is_row (bits : List Bool) (now : Time) :
    isOperation (decodeFrame bits now) = false ∧ timeOf (decodeFrame bits now) = some now := by
  unfold decodeFrame
  dsimp only
  split_ifs <;> exact ⟨rfl, rfl⟩

/-- A row whose word is the legal frame `bits` is the format's rule on the accumulator that holds them (30_encoding.md R94). -/
theorem effect_of_encode_frame {i : Instr} {bits : List Bool} {now : Time} (hwf : i.wellFormed = true)
    (henc : encode i = .frame bits now) (hlen : bits.length ∈ [4, 8, 24, 26, 32, 34]) (s : State) :
    effect i s = s.finishPoll (formatRule now (s.dev.loadFrame bits).correct) := by
  cases i <;> cases henc
  case key4.refl k => rw [formatRule_key4 now (key4Bits_length k)]; rfl
  case key8.refl c k => rw [formatRule_key8 now (key8Bits_length c k)]; rfl
  case card24.refl id => rw [formatRule_card now (by simp)]; rfl
  case card26.refl pl id pt => rw [formatRule_card now (by simp)]; rfl
  case card32.refl x id => rw [formatRule_card now (by simp)]; rfl
  case card34.refl pl id pt => rw [formatRule_card now (by simp)]; rfl
  case noise.refl n => exact absurd (by rwa [noiseBits_length] at hlen) ((noise_wellFormed_iff n now).1 hwf)

/-- A quiet poll has the effect of the row decoded from the bits the accumulator holds (30_encoding.md R70). -/
theorem effect_poll_of_quiet {s : State} {bits : List Bool} {now : Time} (hholds : s.dev.Holds bits)
    (hquiet : 25000 < (now - s.dev.last_pulse_time).toNat) : effect (.poll now) s = effect (decodeFrame bits now) s := by
  by_cases hlen : bits.length ∈ [4, 8, 24, 26, 32, 34]
  · rw [effect_of_encode_frame (decodeFrame_wellFormed bits now) (encode_decodeFrame now hlen) hlen, loadFrame_of_holds hholds, effect,
      frameDecode_of_legal_length hquiet (by rwa [hholds.1])]
  · rw [decodeFrame_illegal now hlen, effect, frameDecode_of_illegal_length hquiet (by rwa [hholds.1])]
    rfl

/-- So it writes what the columns of that row say. -/
theorem effect_poll_of_quiet_eq_afterRow {s : State} {bits : List Bool} {now : Time} (hholds : s.dev.Holds bits)
    (hquiet : 25000 < (now - s.dev.last_pulse_time).toNat) : effect (.poll now) s = s.afterRow (decodeFrame bits now) now := by
  obtain ⟨hrow, htime⟩ := decodeFrame_is_row bits now
  rw [effect_poll_of_quiet hholds hquiet, effect_frame_row hrow htime]

/-- A poll that is not quiet returns false and no more (41_quiet_and_length.md R121). -/
theorem effect_poll_of_not_quiet {s : State} {now : Time} (hearly : (now - s.dev.last_pulse_time).toNat ≤ 25000) :
    effect (.poll now) s = { s with ret := .poll false } := by
  rw [effect, frameDecode_of_not_quiet hearly]
  rfl

/-- Settles O10: the two closed forms, with a short value below `2 ^ 31` and `data_high` corrected above 32 only. -/
theorem correctedBuffersHoldTheFrame : Obligations.CorrectedBuffersHoldTheFrame := by
  intro d bits hholds
  have hlow : d.correct.data_low.toNat = frameValue bits % 2 ^ 31 := corrected_low_toNat hholds
  obtain ⟨hcount, -, hhigh⟩ := id hholds
  have hlt := frameValue_lt bits
  refine ⟨hlow, fun hshort => ?upTo31, fun h32 => ?at32, fun hlong => ?above32⟩
  case upTo31 =>
    have hsmall : frameValue bits < 2 ^ 31 := hlt.trans_le (Nat.pow_le_pow_right (by decide) hshort)
    refine ⟨by rw [hlow, Nat.mod_eq_of_lt hsmall], BitVec.eq_of_toNat_eq ?_⟩
    rw [DeviceState.correct_data_high, if_neg (by omega), hhigh, Nat.div_eq_of_lt hsmall]
    rfl
  case at32 =>
    rw [h32] at hlt
    rw [DeviceState.correct_data_high, if_neg (by omega), hhigh]
    omega
  case above32 => rw [DeviceState.correct_data_high, if_pos (by omega), corrected_high_toNat hholds]

/-- Settles O11: the early poll changes nothing, and the three results of a quiet one all clear the accumulator. -/
theorem quietTestDecidesWhetherThePollGoesOn : Obligations.QuietTestDecidesWhetherThePollGoesOn := by
  intro now s hinit
  rw [exec_of_initialised _ hinit]
  refine ⟨fun hearly => ?early, fun hquiet => ⟨_, rfl, ?quiet⟩⟩
  case early => exact ⟨by rw [frameDecode_of_not_quiet hearly], by rw [effect_poll_of_not_quiet hearly]⟩
  case quiet =>
    rw [effect, State.finishPoll_dev]
    by_cases hlen : s.dev.bit_count ∈ [4, 8, 24, 26, 32, 34]
    · obtain hdecode | ⟨c, hdecode⟩ := frameDecode_legal_result (now := now) (by omega) hlen <;> rw [hdecode] <;> exact ⟨rfl, rfl, rfl⟩
    · rw [frameDecode_of_illegal_length (by omega) hlen]
      exact ⟨rfl, rfl, rfl⟩

end Sys2Proof.Machine
end

section
/-! SUPPORT. Runs as one state, and the closed form of a run of pulses (40_accumulate.md section 5). -/

namespace Sys2Proof.Machine

/-! ### Runs -/

/-- The state a run of events leaves on an existing device. -/
def effects (is : List Instr) (s : State) : State := is.foldl (fun s i => effect i s) s

@[simp] theorem effects_nil (s : State) : effects [] s = s := rfl

@[simp] theorem effects_cons (i : Instr) (is : List Instr) (s : State) : effects (i :: is) s = effects is (effect i s) := rfl

theorem effects_append (is js : List Instr) (s : State) : effects (is ++ js) s = effects js (effects is s) := List.foldl_append

theorem run_eq_effects (is : List Instr) {s : State} (hinit : s.initialised = true) : run is s = .next (effects is s) :=
  run_of_initialised is hinit

theorem effects_initialised (is : List Instr) {s : State} (hinit : s.initialised = true) : (effects is s).initialised = true := by
  induction is generalizing s with
  | nil => exact hinit
  | cons i is ih => exact ih (effect_initialised i s hinit)

@[simp] theorem effects_inputs (is : List Instr) (s : State) : (effects is s).inputs = s.inputs := by
  induction is generalizing s with
  | nil => rfl
  | cons i is ih => rw [effects_cons, ih, effect_inputs]

@[simp] theorem effects_draws (is : List Instr) (s : State) : (effects is s).draws = s.draws := by
  induction is generalizing s with
  | nil => rfl
  | cons i is ih => rw [effects_cons, ih, effect_draws]

/-- No run looks at the inputs, at the draws or at the last return value. -/
theorem effects_dev_congr (is : List Instr) {s t : State} (h : s.dev = t.dev) : (effects is s).dev = (effects is t).dev := by
  induction is generalizing s t with
  | nil => exact h
  | cons i is ih => exact ih (effect_dev_congr i h)

/-- Settles O36: the device exists at reset, and an existing device completes every event and stays. -/
theorem everyRunFromResetCompletes : Obligations.EveryRunFromResetCompletes :=
  fun is => ⟨effects is State.reset, run_eq_effects is State.reset_initialised, effects_initialised is State.reset_initialised⟩

/-! ### Runs of pulses -/

/-- The timestamp of the last pulse, or `last` where there was none. -/
def lastTime (ps : List (Line × Time)) (last : Time) : Time := (ps.getLast?.map Prod.snd).getD last

@[simp] theorem lastTime_append_singleton (ps : List (Line × Time)) (p : Line × Time) (last : Time) :
    lastTime (ps ++ [p]) last = p.2 := by
  simp [lastTime]

@[simp] theorem bitsOfPulses_length (ps : List (Line × Time)) : (bitsOfPulses ps).length = ps.length := List.length_map _

theorem bitsOfPulses_append (ps qs : List (Line × Time)) : bitsOfPulses (ps ++ qs) = bitsOfPulses ps ++ bitsOfPulses qs :=
  List.map_append

theorem pulses_append (ps qs : List (Line × Time)) : pulses (ps ++ qs) = pulses ps ++ pulses qs := List.map_append

/-- What a run of pulses leaves of a record that holds `bits`: the image of all the bits, and the last timestamp. -/
def DeviceState.afterPulses (d : DeviceState) (bits : List Bool) (ps : List (Line × Time)) : DeviceState :=
  (d.loadFrame (bits ++ bitsOfPulses ps)).rearm (lastTime ps d.last_pulse_time)

@[simp] theorem afterPulses_last_pulse_time (d : DeviceState) (bits : List Bool) (ps : List (Line × Time)) :
    (d.afterPulses bits ps).last_pulse_time = lastTime ps d.last_pulse_time := rfl

theorem afterPulses_append_singleton (d : DeviceState) (bits : List Bool) (ps : List (Line × Time)) (p : Line × Time) :
    d.afterPulses bits (ps ++ [p]) =
      ((d.afterPulses bits ps).loadFrame (bits ++ bitsOfPulses ps ++ [p.1.bit])).rearm p.2 := by
  simp only [DeviceState.afterPulses, lastTime_append_singleton, bitsOfPulses_append, ← List.append_assoc]
  rfl

theorem afterPulses_holds (d : DeviceState) (bits : List Bool) (ps : List (Line × Time)) :
    (d.afterPulses bits ps).Holds (bits ++ bitsOfPulses ps) :=
  rearm_holds (loadFrame_holds d _) _

/-- The record after one pulse is determined by its image and its timestamp. -/
theorem onPulse_eq_loadFrame {d : DeviceState} {bits : List Bool} (h : d.Holds bits) (line : Line) (ts : Time) :
    d.onPulse line ts = (d.loadFrame (bits ++ [line.bit])).rearm ts := by
  rw [← loadFrame_of_holds (onPulse_holds h line ts)]
  rfl

/-- The law of the accumulator, from any held image on (40_accumulate.md R106): each pulse appends its bit. -/
theorem effects_pulses_dev {s : State} {bits : List Bool} (h : s.dev.Holds bits) (ps : List (Line × Time)) :
    (effects (pulses ps) s).dev = s.dev.afterPulses bits ps := by
  induction ps using List.reverseRecOn with
  | nil =>
    rw [DeviceState.afterPulses, bitsOfPulses, List.map_nil, List.append_nil, loadFrame_of_holds h]
    rfl
  | append_singleton ps p ih =>
    have hheld : (effects (pulses ps) s).dev.Holds (bits ++ bitsOfPulses ps) := by
      rw [ih]
      exact afterPulses_holds ..
    calc (effects (pulses (ps ++ [p])) s).dev
        = (effect (pulseOn p.1 p.2) (effects (pulses ps) s)).dev := by rw [pulses_append, effects_append]; rfl
      _ = (effects (pulses ps) s).dev.onPulse p.1 p.2 := by rw [effect_pulseOn]
      _ = ((s.dev.afterPulses bits ps).loadFrame (bits ++ bitsOfPulses ps ++ [p.1.bit])).rearm p.2 := by
        rw [onPulse_eq_loadFrame hheld, ih]
      _ = s.dev.afterPulses bits (ps ++ [p]) := (afterPulses_append_singleton ..).symm

/-- From a clear accumulator the image is the run's own bits. -/
theorem effects_pulses_holds {s : State} (h : s.dev.Holds []) (ps : List (Line × Time)) :
    (effects (pulses ps) s).dev.Holds (bitsOfPulses ps) := by
  rw [effects_pulses_dev h]
  exact afterPulses_holds s.dev [] ps

/-- Pulses touch neither `code` nor `frame_type`, on any record (10_state.md R28). -/
theorem effects_pulses_keep_code_and_frame_type (ps : List (Line × Time)) (s : State) :
    (effects (pulses ps) s).dev.code = s.dev.code ∧ (effects (pulses ps) s).dev.frame_type = s.dev.frame_type := by
  induction ps generalizing s with
  | nil => exact ⟨rfl, rfl⟩
  | cons p ps ih =>
    obtain ⟨hcode, htype⟩ := ih (effect (pulseOn p.1 p.2) s)
    rw [effect_pulseOn] at hcode htype
    rw [pulses, List.map_cons, effects_cons, ← pulses, effect_pulseOn]
    exact ⟨hcode, htype⟩

/-- Settles O7: the law of the accumulator from the empty image. -/
theorem accumulatorHoldsTheRun : Obligations.AccumulatorHoldsTheRun := by
  intro ps s hinit hcount hlow hhigh
  have hempty : s.dev.Holds [] := (holds_nil_iff _).2 ⟨hcount, hlow, hhigh⟩
  obtain ⟨hlen, hlow', hhigh'⟩ := effects_pulses_holds hempty ps
  obtain ⟨hcode, htype⟩ := effects_pulses_keep_code_and_frame_type ps s
  refine ⟨_, run_eq_effects _ hinit, by rw [hlen, bitsOfPulses_length], hlow', hhigh', ?_, hcode, htype, effects_initialised _ hinit,
    effects_inputs _ s⟩
  rw [effects_pulses_dev hempty]
  rfl

/-- Settles O30: the accessors answer the registers, which pulses keep. -/
theorem accessorsDoNotSeePulses : Obligations.AccessorsDoNotSeePulses := by
  intro ps s hinit
  obtain ⟨hcode, htype⟩ := effects_pulses_keep_code_and_frame_type ps s
  have hin := effects_initialised (pulses ps) hinit
  exact ⟨_, _, _, run_eq_effects _ hinit, exec_of_initialised _ hin, congrArg Ret.code hcode, exec_of_initialised _ hin,
    congrArg (fun f : FrameType => Ret.type f.toInt) htype⟩

/-- Settles O34: the run's length is what the accumulator counts, and it is no legal one. -/
theorem overrunEndsAsNoise : Obligations.OverrunEndsAsNoise := by
  intro ps now s hinit hempty hlong
  refine ⟨_, run_eq_effects _ hinit, fun hquiet => ?_⟩
  have hlen : (effects (pulses ps) s).dev.bit_count ∉ [4, 8, 24, 26, 32, 34] := by
    rw [(effects_pulses_holds hempty ps).1, bitsOfPulses_length]
    simp only [List.mem_cons, List.not_mem_nil, or_false]
    omega
  rw [(illegalLengthIsNoise now _ (effects_initialised _ hinit) hquiet hlen).2, effects_pulses_dev hempty]
  rfl

/-- Settles O33: a poll that is not quiet leaves the record, and with it all that the later pulses make of it. -/
theorem framesAreJoinedWithoutAQuietPoll : Obligations.FramesAreJoinedWithoutAQuietPoll := by
  intro ps qs mid now s t hinit hempty hrun hearly
  cases (run_eq_effects (pulses ps) hinit).symm.trans hrun
  have hsame : (effects (pulses ps ++ .poll mid :: pulses qs) s).dev = (effects (pulses (ps ++ qs)) s).dev := by
    rw [effects_append, effects_cons, effect_poll_of_not_quiet hearly, pulses_append, effects_append]
    exact effects_dev_congr (pulses qs) rfl
  have hjoined : (effects (pulses ps ++ .poll mid :: pulses qs) s).dev.Holds (bitsOfPulses ps ++ bitsOfPulses qs) := by
    rw [hsame, ← bitsOfPulses_append]
    exact effects_pulses_holds hempty (ps ++ qs)
  have hin := effects_initialised (pulses ps ++ .poll mid :: pulses qs) hinit
  refine ⟨_, _, run_eq_effects _ hinit, run_eq_effects _ hinit, hsame, hjoined, fun hquiet => ?_⟩
  rw [exec_of_initialised _ hin, exec_of_initialised _ hin, effect_poll_of_quiet hjoined hquiet]

/-! ### KEY8 on the frame value -/

/-- Complementary nibbles add up to 15 (42_format_decode.md R142). -/
theorem eq_complement_iff_add (c k : Nibble) : k = ~~~c ↔ k.toNat + c.toNat = 15 := by
  rw [← BitVec.toNat_inj, BitVec.toNat_not]
  omega

/-- They XOR to `0xF`. -/
theorem eq_complement_iff_xor (c k : Nibble) : k = ~~~c ↔ c ^^^ k = 0xF := by
  revert c k
  decide

theorem afterRow_key8_ret (c k : Nibble) (now : Time) (s : State) :
    (s.afterRow (.key8 c k now) now).ret = .poll true ↔ k = ~~~c := by
  rw [State.afterRow, rowCode]
  split <;> simp_all

/-- Settles O14: the quiet poll is the KEY8 row of `V[7:4]` and `V[3:0]`, whose check is the row's Success. -/
theorem key8SucceedsExactlyOnComplementaryNibbles : Obligations.Key8SucceedsExactlyOnComplementaryNibbles := by
  intro ps now s v hinit hempty hlen hv
  refine ⟨_, _, run_eq_effects _ hinit, exec_of_initialised _ (effects_initialised _ hinit), fun hquiet => ?_⟩
  have hbits : (bitsOfPulses ps).length = 8 := (bitsOfPulses_length ps).trans hlen
  have hlt : v < 2 ^ 8 := by rw [hv, ← hbits]; exact frameValue_lt _
  have hc : field 4 4 v = BitVec.ofNat 4 (v / 16) := by rw [field, Nat.shiftRight_eq_div_pow]
  have hk : field 4 0 v = BitVec.ofNat 4 v := rfl
  rw [effect_poll_of_quiet_eq_afterRow (effects_pulses_holds hempty ps) hquiet, decodeFrame_of_length_eight now hbits, ← hv, hc, hk]
  have hret := afterRow_key8_ret (BitVec.ofNat 4 (v / 16)) (BitVec.ofNat 4 v) now (effects (pulses ps) s)
  refine ⟨?sum, ?xor, fun htrue => ?code, fun hfalse => ?timer⟩
  case sum =>
    rw [hret, eq_complement_iff_add, BitVec.toNat_ofNat, BitVec.toNat_ofNat, Nat.mod_eq_of_lt (a := v / 16) (by omega)]
  case xor => rw [hret, eq_complement_iff_xor]
  case code =>
    rw [State.afterRow, DeviceState.afterRow, rowCode, if_pos (hret.1 htrue)]
    rfl
  case timer =>
    rw [State.afterRow, DeviceState.afterRow, rowCode, if_neg (mt hret.2 hfalse)]
    exact ⟨rfl, rfl⟩

/-! ### Parity bits -/

/-- The value between the two parity bits is the value of the bits between them. -/
theorem field_between_parity_bits {n : Nat} {bits : List Bool} (h : bits.length = n + 2) :
    field n 1 (frameValue bits) = BitVec.ofNat n (frameValue bits.tail.dropLast) := by
  obtain ⟨b, rest, rfl⟩ := List.exists_cons_of_length_eq_add_one h
  obtain ⟨mid, c, rfl⟩ := List.eq_nil_or_concat' rest |>.resolve_left (by rintro rfl; simp at h)
  have hmid : mid.length = n := by simpa using h
  have hc := Bool.toNat_lt c
  have hhalf : frameValue (b :: (mid ++ [c])) / 2 = b.toNat * 2 ^ n + frameValue mid := by
    rw [frameValue_cons, frameValue_append_singleton, List.length_append, hmid, List.length_singleton, pow_succ,
      ← Nat.mul_assoc]
    omega
  rw [List.tail_cons, List.dropLast_concat]
  apply BitVec.eq_of_toNat_eq
  rw [field_toNat, pow_one, hhalf, BitVec.toNat_ofNat, Nat.mul_add_mod_self_right]

/-- The table's columns of a card frame do not name its parity bits (42_format_decode.md R151). -/
theorem card_columns_of_same_data {bits bits' : List Bool} (now : Time) (hlen : bits.length = 26 ∨ bits.length = 34)
    (hlen' : bits'.length = bits.length) (hdata : bits.tail.dropLast = bits'.tail.dropLast) :
    rowCode (decodeFrame bits now) = rowCode (decodeFrame bits' now) ∧
      rowType (decodeFrame bits now) = rowType (decodeFrame bits' now) := by
  obtain h26 | h34 := hlen
  · have h26' : bits'.length = 26 := hlen'.trans h26
    rw [decodeFrame_of_length_26 now h26, decodeFrame_of_length_26 now h26', field_between_parity_bits (n := 24) h26,
      field_between_parity_bits (n := 24) h26', hdata]
    exact ⟨rfl, rfl⟩
  · have h34' : bits'.length = 34 := hlen'.trans h34
    rw [decodeFrame_of_length_34 now h34, decodeFrame_of_length_34 now h34', field_between_parity_bits (n := 32) h34,
      field_between_parity_bits (n := 32) h34', hdata]
    exact ⟨rfl, rfl⟩

/-- A quiet poll after a run of pulses into a clear accumulator, in terms of the run and of the state before it. -/
theorem effect_poll_after_pulses {s : State} {ps : List (Line × Time)} {now : Time} (hinit : s.initialised = true)
    (hempty : s.dev.Holds []) (hquiet : 25000 < (now - lastTime ps s.dev.last_pulse_time).toNat) :
    effect (.poll now) (effects (pulses ps) s) =
      { s with
        dev := (s.dev.afterPulses [] ps).afterRow (decodeFrame (bitsOfPulses ps) now) now
        ret := .poll (rowCode (decodeFrame (bitsOfPulses ps) now)).isSome } := by
  have hdev := effects_pulses_dev hempty ps
  rw [effect_poll_of_quiet_eq_afterRow (effects_pulses_holds hempty ps) (by rwa [hdev]), State.afterRow, hdev,
    effects_initialised _ hinit, effects_inputs, effects_draws, hinit]

/-- Settles O21: the two polls are rows with the same columns, and the runs left the same timer. -/
theorem parityBitsAreNeverVerified : Obligations.ParityBitsAreNeverVerified := by
  intro ps qs now s hinit hempty hlen hsame hdata htimes
  have hin (rs : List (Line × Time)) := effects_initialised (pulses rs) hinit
  have hlast : lastTime ps s.dev.last_pulse_time = lastTime qs s.dev.last_pulse_time := by rw [lastTime, lastTime, htimes]
  refine ⟨_, _, _, run_eq_effects _ hinit, run_eq_effects _ hinit, fun hquiet => ⟨exec_of_initialised _ (hin ps), ?_⟩⟩
  rw [effects_pulses_dev hempty] at hquiet
  have hquiet' : 25000 < (now - lastTime qs s.dev.last_pulse_time).toNat := by rwa [← hlast]
  obtain ⟨hcode, htype⟩ := card_columns_of_same_data now (bits := bitsOfPulses ps) (bits' := bitsOfPulses qs)
    (by simpa using hlen) (by simpa using hsame) hdata
  have hdev : (s.dev.afterPulses [] qs).afterRow (decodeFrame (bitsOfPulses qs) now) now =
      (s.dev.afterPulses [] ps).afterRow (decodeFrame (bitsOfPulses ps) now) now := by
    simp only [DeviceState.afterRow, hcode, htype, afterPulses_last_pulse_time, hlast]
    rfl
  rw [exec_of_initialised _ (hin qs), effect_poll_after_pulses hinit hempty hquiet, effect_poll_after_pulses hinit hempty hquiet',
    hcode, hdev]

end Sys2Proof.Machine
end

section
/-! SUPPORT. 30_encoding.md R79 and R94, 10_state.md sections 1 and 2: the registers show the format table's view, and every step keeps the
invariant. -/

namespace Sys2Proof.Machine

/-! ### The format table's view -/

/-- A row writes the view's columns and leaves nothing held. -/
theorem afterRow_shows {s : State} {v : FrameView} (h : s.Shows v) (i : Instr) (now : Time) :
    (s.afterRow i now).Shows (v.frame i now) := by
  obtain ⟨-, hlast, hcode, htype, -⟩ := h
  refine ⟨clear_holds s.dev, ?_, ?_, ?_, rfl⟩ <;>
    simp only [State.afterRow, DeviceState.afterRow, FrameView.frame, hlast, hcode, htype]

/-- A pulse appends its bit to the view's. -/
theorem onPulse_shows {s : State} {v : FrameView} (h : s.Shows v) (line : Line) (ts : Time) :
    State.Shows { s with dev := s.dev.onPulse line ts, ret := .nothing }
      { v with bits := v.bits ++ [line.bit], last := ts, ret := .nothing } := by
  obtain ⟨hholds, -, hcode, htype, -⟩ := h
  exact ⟨onPulse_holds hholds line ts, rfl, hcode, htype, rfl⟩

/-- An answer leaves the registers. -/
theorem answer_shows {s : State} {v : FrameView} (h : s.Shows v) {r r' : Ret} (hr : r = r') :
    State.Shows { s with ret := r } { v with ret := r' } := by
  obtain ⟨hholds, hlast, hcode, htype, -⟩ := h
  exact ⟨hholds, hlast, hcode, htype, hr⟩

/-- A poll is the row of the bits held where the line is quiet, and an answer where it is not. -/
theorem effect_poll_shows {s : State} {v : FrameView} (h : s.Shows v) (now : Time) :
    (effect (.poll now) s).Shows (v.event (.poll now)) := by
  obtain ⟨hholds, hlast, -⟩ := id h
  by_cases hearly : (now - s.dev.last_pulse_time).toNat ≤ 25000
  · rw [effect_poll_of_not_quiet hearly, FrameView.event, if_pos (by rwa [← hlast])]
    exact answer_shows h rfl
  · rw [effect_poll_of_quiet_eq_afterRow hholds (Nat.lt_of_not_le hearly), FrameView.event, if_neg (by rwa [← hlast])]
    exact afterRow_shows h _ now

/-- The simulation: every event keeps what the state shows. -/
theorem effect_shows {s : State} {v : FrameView} (h : s.Shows v) (i : Instr) : (effect i s).Shows (v.event i) := by
  have hrow {i : Instr} {now : Time} (hop : isOperation i = false) (htime : timeOf i = some now) :
      (effect i s).Shows (v.frame i now) := by
    rw [effect_frame_row hop htime]
    exact afterRow_shows h i now
  obtain ⟨-, -, hcode, htype, -⟩ := id h
  cases i with
  | init => exact ⟨zero_holds, rfl, rfl, rfl, rfl⟩
  | pulseA ts => exact onPulse_shows h .a ts
  | pulseB ts => exact onPulse_shows h .b ts
  | poll now => exact effect_poll_shows h now
  | getCode => exact answer_shows h (congrArg Ret.code hcode)
  | getType => exact answer_shows h (congrArg (fun f : FrameType => Ret.type f.toInt) htype)
  | key4 k now => exact hrow rfl rfl
  | key8 c k now => exact hrow rfl rfl
  | card24 id now => exact hrow rfl rfl
  | card26 pl id pt now => exact hrow rfl rfl
  | card32 x id now => exact hrow rfl rfl
  | card34 pl id pt now => exact hrow rfl rfl
  | noise n now => exact hrow rfl rfl

theorem effects_shows (is : List Instr) {s : State} {v : FrameView} (h : s.Shows v) :
    (effects is s).Shows (is.foldl (fun v i => v.event i) v) := by
  induction is generalizing s v with
  | nil => exact h
  | cons i is ih => exact ih (effect_shows h i)

/-- Settles O50: the simulation along the list. -/
theorem registersRefineTheFormatTable : Obligations.RegistersRefineTheFormatTable :=
  fun is _ _ hinit hshows => ⟨_, run_eq_effects is hinit, effects_shows is hshows⟩

/-! ### The invariant -/

/-- The types the table writes are legal. -/
theorem rowType_legal {i : Instr} {f : FrameType} (h : rowType i = some f) : f ∈ legalTypes := by
  cases i <;> cases h <;> decide

theorem frame_keeps_type_legal {v : FrameView} (h : v.frame_type ∈ legalTypes) (i : Instr) (now : Time) :
    (v.frame i now).frame_type ∈ legalTypes := by
  rw [FrameView.frame]
  cases hrow : rowType i with
  | none => exact h
  | some f => exact rowType_legal hrow

/-- Every event keeps the view's type legal. -/
theorem event_keeps_type_legal {v : FrameView} (h : v.frame_type ∈ legalTypes) (i : Instr) :
    (v.event i).frame_type ∈ legalTypes := by
  cases i with
  | init => exact List.mem_cons_self
  | pulseA ts => exact h
  | pulseB ts => exact h
  | getCode => exact h
  | getType => exact h
  | poll now =>
    rw [FrameView.event]
    split
    · exact h
    · exact frame_keeps_type_legal h _ now
  | _ => exact frame_keeps_type_legal h _ _

/-- The view of a record that holds `bits`. -/
def State.view (s : State) (bits : List Bool) : FrameView :=
  { bits := bits, last := s.dev.last_pulse_time, code := s.dev.code, frame_type := s.dev.frame_type, ret := s.ret }

theorem shows_view {s : State} {bits : List Bool} (h : s.dev.Holds bits) : s.Shows (s.view bits) := ⟨h, rfl, rfl, rfl, rfl⟩

/-- Every event keeps the invariant: the state goes on showing a view. -/
theorem effect_inv (i : Instr) {s : State} (h : s.Inv) : (effect i s).Inv := by
  obtain ⟨⟨bits, hholds⟩, hlegal⟩ := h
  obtain ⟨hholds', -, -, htype, -⟩ := effect_shows (shows_view hholds) i
  refine ⟨⟨_, hholds'⟩, ?_⟩
  rw [htype]
  exact event_keeps_type_legal hlegal i

/-! ### A step is a run of at most two operations -/

/-- Everything a run can answer with a next state. -/
theorem run_next {is : List Instr} {s t : State} (h : run is s = .next t) : t = effects is s := by
  induction is generalizing s with
  | nil =>
    cases h
    rfl
  | cons i is ih =>
    rw [run, runWith] at h
    split at h
    · next u hu =>
      obtain ⟨rfl, -⟩ := exec_next hu
      exact ih h
    · cases h
    · cases h

/-- A poll and a pulse are operations. -/
theorem PollAndPulse.operations {i j : Instr} (h : PollAndPulse i j) : isOperation i = true ∧ isOperation j = true := by
  obtain ⟨now, line, ts, ⟨rfl, rfl⟩ | ⟨rfl, rfl⟩⟩ := h
  · exact ⟨rfl, pulseOn_operation line ts⟩
  · exact ⟨pulseOn_operation line ts, rfl⟩

/-- One event, of a device that exists or by INIT, is a run of its own. -/
theorem run_singleton {i : Instr} {s : State} (h : i = .init ∨ s.initialised = true) : run [i] s = .next (effect i s) := by
  obtain rfl | hinit := h
  · rfl
  · exact run_eq_effects [i] hinit

/-- INIT makes the device exist, and every other event keeps it as it is. -/
theorem effect_initialised_congr (i : Instr) {s t : State} (h : s.initialised = t.initialised) :
    (effect i s).initialised = (effect i t).initialised := by
  cases i <;> simp [effect, h]

/-- Every step is a run of at most two operations on the record (10_state.md R28). -/
theorem step_is_run_of_operations {s t : State} (h : step s = .next t) :
    ∃ (is : List Instr) (u : State), is.length ≤ 2 ∧ (∀ i ∈ is, isOperation i = true) ∧
      run is s = .next u ∧ t.dev = u.dev ∧ t.initialised = u.initialised := by
  obtain ⟨i, s', rfl, ⟨hdev, hinit⟩, hop, hdevice⟩ | ⟨i, j, s', rfl, ⟨hdev, hinit⟩, hp, hdevice⟩ | ⟨⟨hdev, hinit⟩, -⟩ :=
    step_next h
  · exact ⟨[i], _, by simp, by simpa using hop, run_singleton hdevice, effect_dev_congr i hdev, effect_initialised_congr i hinit⟩
  · obtain ⟨hi, hj⟩ := hp.operations
    exact ⟨[i, j], _, by simp, by simp [hi, hj], run_eq_effects [i, j] hdevice, effects_dev_congr [i, j] hdev,
      effect_initialised_congr j (effect_initialised_congr i hinit)⟩
  · exact ⟨[], s, by simp, by simp, rfl, hdev, hinit⟩

/-- What every event keeps of the record, every step keeps. -/
theorem step_keeps {P : DeviceState → Prop} (heffect : ∀ (i : Instr) (s : State), P s.dev → P (effect i s).dev) {s t : State}
    (hs : P s.dev) (h : step s = .next t) : P t.dev := by
  have hrun (is : List Instr) : ∀ s : State, P s.dev → P (effects is s).dev := by
    induction is with
    | nil => exact fun _ hs => hs
    | cons i is ih => exact fun s hs => ih _ (heffect i s hs)
  obtain ⟨is, u, -, -, hu, hdev, -⟩ := step_is_run_of_operations h
  rw [hdev, run_next hu]
  exact hrun is s hs

/-- Settles O48: every event keeps the invariant, so every step does. -/
theorem everyStepKeepsTheInvariant : Obligations.EveryStepKeepsTheInvariant :=
  fun _ _ hinv hstep =>
    step_keeps (P := fun d => (∃ bits, d.Holds bits) ∧ d.frame_type ∈ legalTypes) (fun i _ h => effect_inv i h) hinv hstep

/-- Settles O47: no bit received, no type yet. -/
theorem resetMeetsTheInvariant : Obligations.ResetMeetsTheInvariant :=
  ⟨⟨⟨[], zero_holds⟩, List.mem_cons_self⟩, State.reset_initialised⟩

end Sys2Proof.Machine
end

section
/-! SUPPORT. 10_state.md R24 to R28: what one event can write, and who has written a register that changed. -/

namespace Sys2Proof.Machine

/-! ### What one event can write -/

/-- The events that check a KEY8 frame: a poll of eight bits, and the row. -/
abbrev IsKey8 (i : Instr) (s : State) : Prop := (∃ now, i = .poll now ∧ s.dev.bit_count = 8) ∨ ∃ c k now, i = .key8 c k now

/-- What an event leaves on the record, by what it returns. -/
inductive Writes (i : Instr) (s : State) : DeviceState → Ret → Prop
  /-- INIT -/
  | init (h : i = .init) : Writes i s .zero .nothing
  /-- a pulse -/
  | pulse (line : Line) (ts : Time) (h : i = pulseOn line ts) : Writes i s (s.dev.onPulse line ts) .nothing
  /-- an accessor, or a poll that is not quiet -/
  | unchanged (r : Ret) (h : r ≠ .poll true) : Writes i s s.dev r
  /-- Success: a row, or a poll of that length -/
  | delivered (c : Data) (f : FrameType) (hrow : rowType i = some f ∨ ∃ now, i = .poll now ∧ f = BitVec.ofNat 8 s.dev.bit_count) :
    Writes i s (s.dev.delivered c f) (.poll true)
  /-- Noise -/
  | noise (now : Time) (h : timeOf i = some now) : Writes i s (s.dev.clear.rearm now) (.poll false)
  /-- Invalid -/
  | invalid (now : Time) (h : timeOf i = some now) (hkey8 : IsKey8 i s) :
    Writes i s { s.dev.clear with frame_type := 8, last_pulse_time := now } (.poll false)

/-- A poll, by the four results of `decode`. -/
theorem poll_writes (now : Time) (s : State) : Writes (.poll now) s (effect (.poll now) s).dev (effect (.poll now) s).ret := by
  obtain ⟨-, -, hinvalid⟩ := checksOfAPollAreTakenInOrder s.dev now
  rw [effect, State.finishPoll_dev, State.finishPoll_ret]
  obtain hdecode | hdecode | hdecode | ⟨c, hdecode⟩ := frameDecode_results s.dev now <;> rw [hdecode]
  · exact .unchanged _ nofun
  · exact .noise now rfl
  · rw [hdecode] at hinvalid
    obtain ⟨-, hcount, -⟩ := hinvalid.1 rfl
    exact .invalid now rfl (.inl ⟨now, rfl, hcount⟩)
  · exact .delivered c _ (.inr ⟨now, rfl, rfl⟩)

/-- A row that writes a code delivers it with its type. -/
theorem row_writes_of_code {i : Instr} {c : Data} {f : FrameType} (s : State) (now : Time) (hcode : rowCode i = some c)
    (htype : rowType i = some f) : Writes i s (s.afterRow i now).dev (s.afterRow i now).ret := by
  rw [State.afterRow, DeviceState.afterRow, hcode, htype]
  exact .delivered c f (.inl htype)

/-- The KEY8 row, by its check. -/
theorem key8_writes (c k : Nibble) (now : Time) (s : State) :
    Writes (.key8 c k now) s (s.afterRow (.key8 c k now) now).dev (s.afterRow (.key8 c k now) now).ret := by
  by_cases hcheck : k = ~~~c
  · exact row_writes_of_code s now (by rw [rowCode, if_pos hcheck]) rfl
  · rw [State.afterRow, DeviceState.afterRow, rowCode, if_neg hcheck]
    exact .invalid now rfl (.inr ⟨c, k, now, rfl⟩)

/-- Everything one event can write (10_state.md R28). -/
theorem effect_writes (i : Instr) (s : State) : Writes i s (effect i s).dev (effect i s).ret := by
  cases i with
  | init => exact .init rfl
  | pulseA ts => exact .pulse .a ts rfl
  | pulseB ts => exact .pulse .b ts rfl
  | poll now => exact poll_writes now s
  | getCode => exact .unchanged _ nofun
  | getType => exact .unchanged _ nofun
  | key4 k now => rw [effect_key4]; exact row_writes_of_code s now rfl rfl
  | key8 c k now => rw [effect_key8]; exact key8_writes c k now s
  | card24 id now => rw [effect_card24]; exact row_writes_of_code s now rfl rfl
  | card26 pl id pt now => rw [effect_card26]; exact row_writes_of_code s now rfl rfl
  | card32 x id now => rw [effect_card32]; exact row_writes_of_code s now rfl rfl
  | card34 pl id pt now => rw [effect_card34]; exact row_writes_of_code s now rfl rfl
  | noise n now => exact .noise now rfl

/-! ### The writers of each register -/

section Writers

variable {i : Instr} {s : State} {d : DeviceState} {r : Ret}

theorem Writes.code_writers (h : Writes i s d r) (hne : d.code ≠ s.dev.code) : i = .init ∨ r = .poll true := by
  cases h with
  | init h => exact .inl h
  | delivered => exact .inr rfl
  | _ => exact absurd rfl hne

theorem Writes.frame_type_writers (h : Writes i s d r) (hne : d.frame_type ≠ s.dev.frame_type) :
    i = .init ∨ r = .poll true ∨ (r = .poll false ∧ d.frame_type = 8 ∧ d.code = s.dev.code ∧ IsKey8 i s) := by
  cases h with
  | init h => exact .inl h
  | delivered => exact .inr (.inl rfl)
  | invalid now h hkey8 => exact .inr (.inr ⟨rfl, rfl, rfl, hkey8⟩)
  | _ => exact absurd rfl hne

theorem Writes.last_pulse_time_writers (h : Writes i s d r) (hne : d.last_pulse_time ≠ s.dev.last_pulse_time) :
    i = .init ∨ (∃ line ts, i = pulseOn line ts ∧ d.last_pulse_time = ts) ∨
      (r = .poll false ∧ timeOf i = some d.last_pulse_time ∧ d.Holds []) := by
  cases h with
  | init h => exact .inl h
  | pulse line ts h => exact .inr (.inl ⟨line, ts, h, rfl⟩)
  | noise now h => exact .inr (.inr ⟨rfl, h, clear_holds s.dev⟩)
  | invalid now h hkey8 => exact .inr (.inr ⟨rfl, h, clear_holds s.dev⟩)
  | _ => exact absurd rfl hne

/-- The accumulator takes a pulse, is emptied, or stays. -/
theorem Writes.accumulator_cases (h : Writes i s d r) :
    (∃ line ts, i = pulseOn line ts ∧ d = s.dev.onPulse line ts) ∨ d.Holds [] ∨ d = s.dev := by
  cases h with
  | pulse line ts h => exact .inl ⟨line, ts, h, rfl⟩
  | unchanged => exact .inr (.inr rfl)
  | init => exact .inr (.inl zero_holds)
  | _ => exact .inr (.inl (clear_holds s.dev))

theorem Writes.success_keeps_last_pulse_time (h : Writes i s d r) (hr : r = .poll true) :
    d.last_pulse_time = s.dev.last_pulse_time := by
  cases h with
  | unchanged => rfl
  | delivered => rfl
  | _ => cases hr

theorem Writes.success_writes_length {now : Time} (h : Writes (.poll now) s d r) (hr : r = .poll true) :
    d.frame_type = BitVec.ofNat 8 s.dev.bit_count := by
  cases h with
  | unchanged r hne => exact absurd hr hne
  | delivered c f hrow =>
    obtain hrow | ⟨now', -, hlen⟩ := hrow
    · cases hrow
    · exact hlen
  | _ => cases hr

end Writers

/-- Settles O49: `effect_writes` register by register; and every step is a run of at most two operations. -/
theorem registersChangeOnlyByTheirWriters : Obligations.RegistersChangeOnlyByTheirWriters := by
  refine ⟨fun i s t hexec => ?_, fun s t => step_is_run_of_operations⟩
  obtain ⟨rfl, -⟩ := exec_next hexec
  have hwrites := effect_writes i s
  refine ⟨hwrites.code_writers, hwrites.frame_type_writers, hwrites.last_pulse_time_writers, fun hchanged => ?accumulator,
    hwrites.success_keeps_last_pulse_time, ?length, ?early, ?accessor⟩
  case accumulator =>
    obtain ⟨line, ts, hi, -⟩ | hempty | hsame := hwrites.accumulator_cases
    · exact .inl ⟨line, ts, hi⟩
    · exact .inr hempty
    · simp [hsame] at hchanged
  case length =>
    rintro now rfl
    exact hwrites.success_writes_length
  case early =>
    rintro now rfl hearly
    rw [effect_poll_of_not_quiet hearly]
  case accessor => rintro (rfl | rfl) <;> rfl

/-! ### The host's clock -/

theorem timeOf_pulseOn (line : Line) (ts : Time) : timeOf (pulseOn line ts) = some ts := by cases line <;> rfl

/-- The timer after an event is the one before it, INIT's zero, or the event's own time. -/
theorem last_pulse_time_sources (i : Instr) (s : State) :
    (effect i s).dev.last_pulse_time = s.dev.last_pulse_time ∨ (effect i s).dev.last_pulse_time = 0 ∨
      timeOf i = some (effect i s).dev.last_pulse_time := by
  by_cases hsame : (effect i s).dev.last_pulse_time = s.dev.last_pulse_time
  · exact .inl hsame
  · obtain rfl | ⟨line, ts, rfl, hts⟩ | ⟨-, htime, -⟩ := (effect_writes i s).last_pulse_time_writers hsame
    · exact .inr (.inl rfl)
    · exact .inr (.inr (by rw [timeOf_pulseOn, hts]))
    · exact .inr (.inr htime)

theorem effect_last_pulse_time_le {i : Instr} {s : State} {bound : Time} (hle : s.dev.last_pulse_time ≤ bound)
    (htime : ∀ t, timeOf i = some t → t ≤ bound) : (effect i s).dev.last_pulse_time ≤ bound := by
  obtain hsame | hzero | hown := last_pulse_time_sources i s
  · rwa [hsame]
  · rw [hzero]
    exact BitVec.le_def.2 (Nat.zero_le _)
  · exact htime _ hown

/-- Where no time goes back, the timer never passes the next event's time (70_reset_and_hazards.md H-5). -/
theorem effects_last_pulse_time_le {is : List Instr} {now t0 : Time} {s : State} (hle : s.dev.last_pulse_time ≤ t0)
    (hmono : MonotoneFrom t0 (is ++ [.poll now])) : (effects is s).dev.last_pulse_time ≤ now := by
  induction is generalizing s t0 with
  | nil => exact BitVec.le_trans hle hmono.1
  | cons i is ih =>
    rw [List.cons_append, MonotoneFrom] at hmono
    cases htime : timeOf i with
    | none =>
      rw [htime] at hmono
      exact ih (effect_last_pulse_time_le hle (by simp [htime])) hmono
    | some t =>
      rw [htime] at hmono
      obtain ⟨ht, hmono⟩ := hmono
      exact ih (effect_last_pulse_time_le (BitVec.le_trans hle ht) (by simp [htime])) hmono

/-- Settles O35: the timer is at or below the poll's time, so the subtraction does not wrap. -/
theorem monotoneTimesMakeElapsedPlain : Obligations.MonotoneTimesMakeElapsedPlain := by
  intro is now t0 s t hle hmono hrun
  cases run_next hrun
  have hbound := effects_last_pulse_time_le hle hmono
  exact ⟨hbound, BitVec.toNat_sub_of_le hbound⟩

/-! ### The lookahead bits and the carry -/

/-- The last bit of a shifted word (40_accumulate.md R108). -/
theorem getLsbD_zero_shiftLeft_one (x : Data) : (x <<< 1).getLsbD 0 = false := by simp

/-- The bits a pulse fills next. -/
def DeviceState.LookaheadZero (d : DeviceState) : Prop := d.data_low.getLsbD 0 = false ∧ d.data_high.getLsbD 0 = false

theorem onPulse_data_low_lookahead (d : DeviceState) (line : Line) (ts : Time) : (d.onPulse line ts).data_low.getLsbD 0 = false :=
  getLsbD_zero_shiftLeft_one _

theorem onPulse_data_high_lookahead {d : DeviceState} (h : d.data_high.getLsbD 0 = false) (line : Line) (ts : Time) :
    (d.onPulse line ts).data_high.getLsbD 0 = false := by
  rw [DeviceState.onPulse_data_high]
  split
  · exact getLsbD_zero_shiftLeft_one _
  · exact h

theorem getLsbD_zero_of_even {x : Data} {n : Nat} (h : x.toNat = 2 * n) : x.getLsbD 0 = false := by
  rw [BitVec.getLsbD, h, Nat.testBit_zero]
  simp

/-- A held image stands above the lookahead bits. -/
theorem holds_lookahead {d : DeviceState} {bits : List Bool} (h : d.Holds bits) : d.LookaheadZero := by
  obtain ⟨-, hlow, hhigh⟩ := h
  exact ⟨getLsbD_zero_of_even hlow, getLsbD_zero_of_even hhigh⟩

theorem effect_keeps_lookahead (i : Instr) (s : State) (h : s.dev.LookaheadZero) : (effect i s).dev.LookaheadZero := by
  obtain ⟨line, ts, -, hd⟩ | hempty | hd := (effect_writes i s).accumulator_cases
  · rw [hd]
    exact ⟨onPulse_data_low_lookahead s.dev line ts, onPulse_data_high_lookahead h.2 line ts⟩
  · exact holds_lookahead hempty
  · rwa [hd]

/-- Settles O9: a pulse shifts a zero in, every other event empties or keeps the buffers, and a held image is even. -/
theorem lookaheadBitsAreZero : Obligations.LookaheadBitsAreZero := by
  refine ⟨fun line ts s hinit => ?pulse, fun s t hlow hhigh => ?step, fun s hinv => ?invariant⟩
  case pulse =>
    exact ⟨_, exec_pulseOn_of_initialised line ts hinit, onPulse_data_low_lookahead s.dev line ts,
      fun h => onPulse_data_high_lookahead h line ts⟩
  case step => exact step_keeps effect_keeps_lookahead ⟨hlow, hhigh⟩
  case invariant =>
    obtain ⟨⟨bits, hholds⟩, -⟩ := hinv
    exact holds_lookahead hholds

/-- Below 32 bits there is nothing to carry and nothing to shift (40_accumulate.md R107). -/
theorem carry_zero_of_short {d : DeviceState} {bits : List Bool} (h : d.Holds bits) (hshort : d.bit_count + 1 ≤ 31) :
    (d.data_high ||| (d.data_low >>> 31)) <<< 1 = d.data_high := by
  obtain ⟨hcount, hlow, hhigh⟩ := h
  have hsmall : frameValue bits < 2 ^ 30 := (frameValue_lt bits).trans_le (Nat.pow_le_pow_right (by decide) (by omega))
  have hhigh0 : d.data_high = 0 := BitVec.eq_of_toNat_eq (by rw [hhigh, Nat.div_eq_of_lt (by omega)]; rfl)
  have hcarry0 : d.data_low >>> 31 = 0 := by
    apply BitVec.eq_of_toNat_eq
    rw [BitVec.toNat_ushiftRight, hlow, Nat.shiftRight_eq_div_pow, Nat.div_eq_of_lt (by omega)]
    rfl
  rw [hhigh0, hcarry0]
  rfl

/-- Settles O8: where the guard holds it is the same expression, where it does not `carry_zero_of_short` applies; outside the invariant a set
bit 31 would be carried at the first pulse. -/
theorem carryGuardIsRedundantWhenReachable : Obligations.CarryGuardIsRedundantWhenReachable := by
  refine ⟨fun s line ts hinit hinv => ⟨_, exec_pulseOn_of_initialised line ts hinit, ?reachable⟩, ?unreachable⟩
  case reachable =>
    obtain ⟨⟨bits, hholds⟩, -⟩ := hinv
    rw [DeviceState.onPulse_data_high]
    split
    · rfl
    · exact (carry_zero_of_short hholds (by omega)).symm
  case unreachable =>
    exact ⟨{ State.reset with dev := { DeviceState.zero with data_low := 0x80000000 } }, _, rfl, rfl,
      exec_pulseOn_of_initialised .a 0 rfl, by decide⟩

/-! ### A frame is reported once -/

/-- Polls that are not quiet leave the record. -/
theorem early_polls_dev {early : List Time} {s : State} (h : ∀ e ∈ early, (e - s.dev.last_pulse_time).toNat ≤ 25000) :
    (effects (early.map .poll) s).dev = s.dev := by
  induction early generalizing s with
  | nil => rfl
  | cons e early ih =>
    rw [List.map_cons, effects_cons, effect_poll_of_not_quiet (h e List.mem_cons_self)]
    exact ih (s := { s with ret := .poll false }) fun e' he' => h e' (List.mem_cons_of_mem e he')

/-- The last of them returns false. -/
theorem early_polls_ret {early : List Time} {s : State} (h : ∀ e ∈ early, (e - s.dev.last_pulse_time).toNat ≤ 25000)
    (hne : early ≠ []) : (effects (early.map .poll) s).ret = .poll false := by
  obtain ⟨before, e, rfl⟩ := List.eq_nil_or_concat' early |>.resolve_left hne
  have hbefore : (effects (before.map .poll) s).dev = s.dev := early_polls_dev fun e' he' => h e' (List.mem_append_left _ he')
  rw [List.map_append, effects_append, List.map_singleton, effects_cons, effects_nil,
    effect_poll_of_not_quiet (by rw [hbefore]; exact h e (by simp))]

/-- Settles O32: the early polls leave the record, the quiet one empties the accumulator, and an empty accumulator delivers nothing. -/
theorem frameIsReportedOnce : Obligations.FrameIsReportedOnce := by
  intro early now later s hinit hearly hquiet
  have hin := effects_initialised (early.map .poll) hinit
  have hdev := early_polls_dev hearly
  have hpoll := exec_of_initialised (.poll now) hin
  have hempty : (effect (.poll now) (effects (early.map .poll) s)).dev.Holds [] := by
    obtain ⟨t, ht, hclear⟩ := (quietTestDecidesWhetherThePollGoesOn now _ hin).2 (by rw [hdev]; exact hquiet)
    cases hpoll.symm.trans ht
    exact (holds_nil_iff _).2 hclear
  have hlater := polls_dev_of_holds_nil later hempty
  exact ⟨_, _, _, run_eq_effects _ hinit, hdev, early_polls_ret hearly, hpoll, hempty,
    run_eq_effects _ (effect_initialised _ _ hin), (congrArg DeviceState.code hlater).trans (DeviceState.rearm_code _ _),
    (congrArg DeviceState.frame_type hlater).trans (DeviceState.rearm_frame_type _ _), polls_ret_of_holds_nil hempty⟩

end Sys2Proof.Machine
end

section
/-! SUPPORT. 00_scope.md R10 and 10_state.md R21: a counter that stops at any ceiling of at least 35 behaves as the unbounded one. -/

namespace Sys2Proof.Machine

/-- The record with its counter at the ceiling, if it has passed it. -/
def DeviceState.clip (sat : Nat) (d : DeviceState) : DeviceState := { d with bit_count := min d.bit_count sat }

/-- The realisation's state beside the model's. -/
def State.clip (sat : Nat) (s : State) : State := { s with dev := s.dev.clip sat }

theorem clip_of_le {sat : Nat} {d : DeviceState} (h : d.bit_count ≤ sat) : d.clip sat = d := by
  rw [DeviceState.clip, Nat.min_eq_left h]

/-- The saturating increment follows the exact one. -/
theorem satIncrement_min (sat n : Nat) : satIncrement sat (min n sat) = min (n + 1) sat := by
  rw [satIncrement]
  split <;> omega

/-- A ceiling of 32 or more is above the carry guard, so both counters answer it alike. -/
theorem onPulseWith_clip {sat : Nat} (hsat : 35 ≤ sat) (d : DeviceState) (line : Line) (ts : Time) :
    (d.clip sat).onPulseWith (satIncrement sat) line ts = (d.onPulse line ts).clip sat := by
  have hguard : (min (d.bit_count + 1) sat > 31) = (d.bit_count + 1 > 31) := propext (by omega)
  simp only [DeviceState.onPulse, DeviceState.onPulseWith, DeviceState.clip, satIncrement_min, Config.carryStart, hguard]

/-- A ceiling of 35 or more is no legal length, so a counter at it decodes as one beyond it: NotReady or Noise. -/
theorem frameDecode_clip {sat : Nat} (hsat : 35 ≤ sat) (d : DeviceState) (now : Time) :
    frameDecode (d.clip sat) now = ((frameDecode d now).1, (frameDecode d now).2.clip sat) := by
  by_cases hle : d.bit_count ≤ sat
  · rw [clip_of_le hle]
    obtain hdecode | hdecode | hdecode | ⟨c, hdecode⟩ := frameDecode_results d now <;> rw [hdecode]
    · rw [clip_of_le hle]
    all_goals exact congrArg (Prod.mk _) (clip_of_le (Nat.zero_le sat)).symm
  by_cases hearly : (now - d.last_pulse_time).toNat ≤ 25000
  · rw [frameDecode_of_not_quiet hearly, frameDecode_of_not_quiet (d := d.clip sat) hearly]
  · have hquiet := Nat.lt_of_not_le hearly
    have hbeyond {n : Nat} (h : 35 ≤ n) : n ∉ [4, 8, 24, 26, 32, 34] := by simp; omega
    rw [frameDecode_of_illegal_length hquiet (hbeyond (by omega)),
      frameDecode_of_illegal_length (d := d.clip sat) hquiet (hbeyond (le_min (by omega) hsat))]
    exact congrArg (Prod.mk _) (clip_of_le (Nat.zero_le sat)).symm

theorem effect_poll_clip {sat : Nat} (hsat : 35 ≤ sat) (now : Time) (s : State) :
    effect (.poll now) (s.clip sat) = (effect (.poll now) s).clip sat := by
  rw [effect, effect, State.clip, frameDecode_clip hsat]
  rfl

/-- INIT's counter is below any ceiling. -/
theorem effect_init_clip (sat : Nat) (s : State) : effect .init (s.clip sat) = (effect .init s).clip sat := by
  have hzero : DeviceState.zero.clip sat = .zero := clip_of_le (Nat.zero_le sat)
  simp only [effect, State.clip, hzero]

/-- A frame row does not read the counter, and clears it. -/
theorem afterRow_clip (sat : Nat) (s : State) (i : Instr) (now : Time) : (s.clip sat).afterRow i now = (s.afterRow i now).clip sat := by
  simp [State.afterRow, State.clip, DeviceState.afterRow, DeviceState.clip, DeviceState.clear]

/-- An event that clipping commutes with completes on both machines alike. -/
theorem exec_clip {sat : Nat} {i : Instr} {s t : State} (hcomm : effect i (s.clip sat) = (effect i s).clip sat)
    (h : exec i s = .next t) : exec i (s.clip sat) = .next (t.clip sat) := by
  obtain ⟨rfl, rfl | hinit⟩ := exec_next h
  · rw [exec_init, hcomm]
  · rw [exec_of_initialised (s := s.clip sat) i hinit, hcomm]

/-- A pulse is the one event that counts. -/
theorem pulse_clip {sat : Nat} (hsat : 35 ≤ sat) {s t : State} {line : Line} {ts : Time} (h : exec (pulseOn line ts) s = .next t) :
    (s.clip sat).withDevice
      (fun s => { s with dev := s.dev.onPulseWith (satIncrement sat) line ts, ret := .nothing }) = .next (t.clip sat) := by
  obtain ⟨rfl, hinit⟩ := exec_next h
  have hinit : s.initialised = true := hinit.resolve_left (by cases line <;> nofun)
  rw [withDevice_of_initialised _ (s := s.clip sat) hinit, effect_pulseOn]
  exact congrArg (fun d => Host.Outcome.next { s with dev := d, ret := .nothing }) (onPulseWith_clip hsat s.dev line ts)

/-- One event keeps the clipping. -/
theorem execSat_clip {sat : Nat} (hsat : 35 ≤ sat) {i : Instr} {s t : State} (h : exec i s = .next t) :
    execSat sat i (s.clip sat) = .next (t.clip sat) := by
  have hrow {i : Instr} {now : Time} (hop : isOperation i = false) (htime : timeOf i = some now) :
      effect i (s.clip sat) = (effect i s).clip sat := by
    rw [effect_frame_row hop htime, effect_frame_row hop htime, afterRow_clip]
  cases i with
  | init => exact exec_clip (effect_init_clip sat s) h
  | pulseA ts => exact pulse_clip hsat (line := .a) h
  | pulseB ts => exact pulse_clip hsat (line := .b) h
  | poll now => exact exec_clip (effect_poll_clip hsat now s) h
  | getCode => exact exec_clip rfl h
  | getType => exact exec_clip rfl h
  | key4 k now => exact exec_clip (hrow rfl rfl) h
  | key8 c k now => exact exec_clip (hrow rfl rfl) h
  | card24 id now => exact exec_clip (hrow rfl rfl) h
  | card26 pl id pt now => exact exec_clip (hrow rfl rfl) h
  | card32 x id now => exact exec_clip (hrow rfl rfl) h
  | card34 pl id pt now => exact exec_clip (hrow rfl rfl) h
  | noise n now => exact exec_clip (hrow rfl rfl) h

/-- Settles O51: clipping is kept event by event along the run. -/
theorem saturatingCounterIsIndistinguishable : Obligations.SaturatingCounterIsIndistinguishable := by
  intro sat is s t hsat hrun
  change runWith (execSat sat) is (s.clip sat) = .next (t.clip sat)
  induction is generalizing s with
  | nil =>
    cases hrun
    rfl
  | cons i is ih =>
    rw [run, runWith] at hrun
    split at hrun
    · next u hu =>
      rw [runWith, execSat_clip hsat hu]
      exact ih u hrun
    · cases hrun
    · cases hrun

end Sys2Proof.Machine
end

section
/-! SUPPORT. 30_encoding.md section 5, 43_controller.md sections 1 and 2: a step, input by input. -/

namespace Sys2Proof.Machine

/-! ### Before a run, and its first poll -/

/-- With `rst` strobed the other strobes do not count (30_encoding.md R92). -/
theorem decode_strobes_of_rst {v : Strobes} (ts now : Time) (h : v.getLsbD 3 = true) : decode (.strobes v ts now) = .instr .init := by
  simp only [decode, decodeStrobes, h]

/-- Settles O2: `rst` is INIT, and INIT has one effect on every state. -/
theorem initZeroesTheRecordInAnyState : Obligations.InitZeroesTheRecordInAnyState :=
  ⟨fun _ ts now => decode_strobes_of_rst ts now, exec_init⟩

/-- Settles O3: every event but INIT needs the device. -/
theorem eventsBeforeInitAreRefused : Obligations.EventsBeforeInitAreRefused := by
  intro i s hinit hne
  rw [exec_of_ne_init s hne, withDevice_before_init _ hinit]

/-- Settles O4: the accumulator is empty at reset, and its timer stands at 0. -/
theorem firstPollAfterResetIsFalse : Obligations.FirstPollAfterResetIsFalse := by
  intro now
  have hpoll : exec (.poll now) State.reset =
      .next { State.reset with dev := DeviceState.zero.rearm (idleTimer 0 now), ret := .poll false } := by
    rw [exec_of_initialised _ State.reset_initialised, effect_poll_of_holds_nil now zero_holds]
    rfl
  rw [hpoll, idleTimer, show now - 0 = now from BitVec.sub_zero now]
  refine ⟨fun hearly => ?early, fun hquiet => ?quiet⟩
  case early => rw [if_pos hearly]; rfl
  case quiet => rw [if_neg (by omega)]; rfl

/-! ### What a fetched event does -/

/-- The accessor of an output register. -/
def readOf : Accessor → Instr
  | .code => .getCode
  | .frameType => .getType

theorem decode_accessor (r : Accessor) : decode (.accessor r) = .instr (readOf r) := by cases r <;> rfl

/-- An existing device that has lost its input goes on to the record and the answer it would have with it. -/
theorem exec_with_inputs {s : State} (i : Instr) (rest : List Input) (hinit : s.initialised = true) :
    ∃ t, exec i { s with inputs := rest } = .next t ∧ t.initialised = true ∧ t.inputs = rest ∧
      t.dev = (effect i s).dev ∧ t.ret = (effect i s).ret := by
  have hin : ({ s with inputs := rest } : State).initialised = true := hinit
  refine ⟨_, exec_of_initialised i hin, effect_initialised i _ hin, effect_inputs i _, effect_dev_congr i rfl, ?_⟩
  cases i <;> rfl

/-- The step's second half: what a fetched event answers. -/
def runFetched : Fetched → Host.Outcome State Fault Refusal
  | .run i s => exec i s
  | .runTwo i j s => execTwo i j s
  | .idle s => .next s
  | .stop r => .refused r

theorem step_eq_runFetched (s : State) : step s = runFetched (fetch s) := by
  unfold step
  cases fetch s <;> rfl

section Inputs

variable {s : State} {rest : List Input}

theorem step_of_no_input (h : s.inputs = []) : step s = .next s.noEvent := by
  simp only [step_eq_runFetched, fetch, h, runFetched]

theorem step_of_edge {v : Strobes} {ts now : Time} (h : s.inputs = .edge v ts now :: rest) :
    step s = runFetched (fetchDecoded (decode (.strobes v ts now)) { s with inputs := rest }) := by
  simp only [step_eq_runFetched, fetch, h]

theorem step_of_read {r : Accessor} (h : s.inputs = .read r :: rest) :
    step s = exec (readOf r) { s with inputs := rest } := by
  simp only [step_eq_runFetched, fetch, h, decode_accessor, fetchDecoded, runFetched]

theorem step_of_slowPoll {now : Time} {edges : List (Line × Time)} (h : s.inputs = .slowPoll now edges :: rest) :
    step s = exec (.poll now) { s with inputs := deferredEdges edges ++ rest } := by
  simp only [step_eq_runFetched, fetch, h, runFetched]

theorem step_of_constructionFailed (h : s.inputs = .constructionFailed :: rest) : step s = .refused .constructionFailed := by
  simp only [step_eq_runFetched, fetch, h, runFetched]

theorem step_of_edge_instr {v : Strobes} {ts now : Time} {i : Instr} (h : s.inputs = .edge v ts now :: rest)
    (hdecode : decode (.strobes v ts now) = .instr i) : step s = exec i { s with inputs := rest } := by
  rw [step_of_edge h, hdecode]
  rfl

/-- POLL and a pulse in one edge: the free value picks the order (30_encoding.md R92). -/
theorem step_of_edge_coincident {v : Strobes} {ts now ts' now' : Time} {line : Line} (h : s.inputs = .edge v ts now :: rest)
    (hdecode : decode (.strobes v ts now) = .coincident now' line ts') : step s =
      if Config.pollFirst s.draws then execTwo (.poll now') (pulseOn line ts') { s with inputs := rest, draws := s.draws + 1 }
      else execTwo (pulseOn line ts') (.poll now') { s with inputs := rest, draws := s.draws + 1 } := by
  rw [step_of_edge h, hdecode, fetchDecoded, serialise]
  split <;> rfl

end Inputs

/-- The strobes of POLL beside a line's pulse. -/
theorem decode_poll_and_strobesOf (line : Line) (ts now : Time) :
    decode (.strobes (0b0100 ||| strobesOf line) ts now) = .coincident now line ts := by
  cases line <;> rfl

/-- Both lines strobed, with POLL or without (30_encoding.md R92). -/
theorem decode_both_lines {v : Strobes} (h : v = 0b0011 ∨ v = 0b0111) (ts now : Time) :
    decode (.strobes v ts now) = .rejected .bothLines := by
  obtain rfl | rfl := h <;> rfl

/-- Settles O39: the rows of the table; an edge with both lines stops the fetch. -/
theorem strobeVectorTable : Obligations.StrobeVectorTable := by
  intro v ts now
  refine ⟨decode_strobes_of_rst ts now, ?_, ?_, ?_, ?_, ?_, ?_, fun hboth s rest hinputs => ?both⟩
  case both =>
    rw [step_of_edge hinputs, decode_both_lines hboth]
    rfl
  all_goals
    rintro rfl
    rfl

/-- Settles O41: the step lemmas, input by input. -/
theorem stepRunsTheDecodedInstruction : Obligations.StepRunsTheDecodedInstruction := by
  intro s rest i
  refine ⟨fun v ts now => step_of_edge_instr, fun r hinputs hdecode => ?read, fun v ts now hinputs hdecode => ?idle,
    step_of_no_input, step_of_constructionFailed⟩
  case read =>
    cases (decode_accessor r).symm.trans hdecode
    exact step_of_read hinputs
  case idle =>
    rw [step_of_edge hinputs, hdecode]
    rfl

/-- Settles O42: POLL is the decoded instruction of the edge, and a quiet poll is the row of the bits held. -/
theorem quietPollRunsTheFrameInstruction : Obligations.QuietPollRunsTheFrameInstruction := by
  intro s rest ts now bits hinit hinputs hholds hquiet
  have hcompletes (i : Instr) := exec_of_initialised (s := { s with inputs := rest }) i hinit
  rw [step_of_edge_instr hinputs (i := .poll now) rfl, hcompletes, hcompletes,
    effect_poll_of_quiet (s := { s with inputs := rest }) hholds hquiet]

/-! ### Placed words -/

theorem decode_of_decodeTableWord {nbits w : Nat} {i : Instr} (h : decodeTableWord nbits w = some i) :
    decode (tableWord nbits w) = .instr i := by
  unfold decodeTableWord at h
  split at h <;> cases h
  assumption

/-- The table numbers strobe vectors and frames; an accessor has no word (30_encoding.md R91). -/
theorem tableWord_ne_accessor (nbits w : Nat) (r : Accessor) : tableWord nbits w ≠ .accessor r := by
  unfold tableWord
  split_ifs <;> nofun

/-- A line re-armed 25001 before the poll is quiet. -/
theorem elapsed_since_placed (now : Time) : (now - (now - 25001)).toNat = 25001 := by
  rw [show now - (now - 25001) = (25001 : Time) by ring]
  rfl

/-- Settles O43: a strobe word is the next edge; a frame is held by the accumulator of a quiet line that is polled next. -/
theorem placedWordIsRunByTheNextStep : Obligations.PlacedWordIsRunByTheNextStep := by
  intro s nbits w i hinit htable
  have hdecode := decode_of_decodeTableWord htable
  rw [State.withFetchWord]
  cases hword : tableWord nbits w with
  | strobes v ts now =>
    rw [hword] at hdecode
    exact .inl ⟨v, ts, now, rfl, step_of_edge_instr rfl hdecode⟩
  | accessor r => exact absurd hword (tableWord_ne_accessor nbits w r)
  | frame bits now =>
    rw [hword] at hdecode
    cases hdecode
    have hholds : ((s.dev.loadFrame bits).rearm (now - 25001)).Holds bits := rearm_holds (loadFrame_holds s.dev bits) _
    refine .inr ⟨bits, now, _, rfl, hholds, rfl, rfl, rfl, ?_⟩
    have hquiet : 25000 < (now - (now - 25001)).toNat := by rw [elapsed_since_placed]; decide
    exact quietPollRunsTheFrameInstruction (placeWord s (.frame bits now)) s.inputs 0 now bits hinit rfl hholds hquiet

/-! ### Edges that take two events, and edges during a poll -/

/-- Settles O44: in either order the step is the run of both events on the record, and the poll's Boolean is the edge's. -/
theorem coincidentStrobesAreSerialised : Obligations.CoincidentStrobesAreSerialised := by
  intro s rest line ts now hinit hinputs
  have hin : ({ s with inputs := rest, draws := s.draws + 1 } : State).initialised = true := hinit
  have hstep := step_of_edge_coincident hinputs (decode_poll_and_strobesOf line ts now)
  by_cases hfirst : Config.pollFirst s.draws = true
  · rw [if_pos hfirst, execTwo_of_initialised _ _ hin] at hstep
    exact ⟨_, effects [.poll now, pulseOn line ts] s, hstep, by simp, effects_initialised [.poll now, pulseOn line ts] hin,
      effects_dev_congr [.poll now, pulseOn line ts] rfl, .inl ⟨run_eq_effects _ hinit, rfl⟩⟩
  · rw [if_neg hfirst, execTwo_of_initialised _ _ hin] at hstep
    exact ⟨_, effects [pulseOn line ts, .poll now] s, hstep, by simp, effects_initialised [pulseOn line ts, .poll now] hin,
      effects_dev_congr [pulseOn line ts, .poll now] rfl, .inr ⟨run_eq_effects _ hinit, by rw [effect_pulseOn]; rfl⟩⟩

/-- What the open parameter leaves of the edges (92_eei_decisions.md D7). -/
theorem deferredEdges_cases (edges : List (Line × Time)) :
    deferredEdges edges = [] ∨ deferredEdges edges = edges.map fun e => .edge (strobesOf e.1) e.2 0 := by
  unfold deferredEdges
  split
  · exact .inr rfl
  · exact .inl rfl

/-- Deferred edges are taken one a step, in order, as the pulses they are. -/
theorem runSteps_deferred (edges : List (Line × Time)) {s : State} {rest : List Input} (hinit : s.initialised = true)
    (hinputs : s.inputs = edges.map (fun e => .edge (strobesOf e.1) e.2 0) ++ rest) :
    ∃ w, runSteps edges.length s = .next w ∧ w.dev = (effects (pulses edges) s).dev ∧ w.inputs = rest := by
  induction edges generalizing s with
  | nil => exact ⟨s, rfl, rfl, hinputs⟩
  | cons e edges ih =>
    have hstep := step_of_edge_instr hinputs (decode_strobesOf e.1 e.2 0)
    obtain ⟨t, ht, hinit', hinputs', hpulse, -⟩ := exec_with_inputs (pulseOn e.1 e.2) _ hinit
    obtain ⟨w, hsteps, hdev, hrest⟩ := ih hinit' hinputs'
    refine ⟨w, ?_, hdev.trans (effects_dev_congr (pulses edges) hpulse), hrest⟩
    rw [List.length_cons, runSteps, hstep.trans ht]
    exact hsteps

/-- Settles O45: the poll does not see the inputs, and the edges left are none, or all, taken as the run of their pulses. -/
theorem edgesDuringAPollAreDeferredOrDropped : Obligations.EdgesDuringAPollAreDeferredOrDropped := by
  intro s rest now edges hinit hinputs
  obtain ⟨t, ht, hinit', hinputs', hdev, hret⟩ := exec_with_inputs (.poll now) (deferredEdges edges ++ rest) hinit
  refine ⟨t, _, (step_of_slowPoll hinputs).trans ht, exec_of_initialised _ hinit, hdev, hret, ?_⟩
  obtain hdrop | hdefer := deferredEdges_cases edges
  · exact .inl (by rw [hinputs', hdrop, List.nil_append])
  · rw [hdefer] at hinputs'
    obtain ⟨w, hsteps, hdev', hrest⟩ := runSteps_deferred edges hinit' hinputs'
    exact .inr ⟨w, _, hinputs', hsteps, run_eq_effects _ (effect_initialised _ s hinit),
      hdev'.trans (effects_dev_congr _ hdev), hrest⟩

end Sys2Proof.Machine
end

section
/-! SUPPORT. 10_state.md R31, 30_encoding.md R90 to R93, 60_exceptions.md section 1: what a step returns, what the ports show in its cycle,
and that it completes within the host's contract. -/

namespace Sys2Proof.Machine

/-! ### Steps complete -/

/-- The only vectors that are no row of the strobe table (30_encoding.md R92). -/
theorem both_lines_of_rejected {v : Strobes} {ts now : Time} {r : Reject} (h : decode (.strobes v ts now) = .rejected r) :
    v = 0b0011 ∨ v = 0b0111 := by
  have hvector : ∀ v : Strobes, v.getLsbD 3 = false → v.getLsbD 1 = true → v.getLsbD 0 = true → v = 0b0011 ∨ v = 0b0111 := by
    decide
  unfold decode decodeStrobes at h
  dsimp only at h
  split at h <;> cases h <;> exact hvector v ‹_› ‹_› ‹_›

theorem exec_completes {s : State} (i : Instr) (hinit : s.initialised = true) : ∃ t, exec i s = .next t ∧ t.initialised = true :=
  ⟨_, exec_of_initialised i hinit, effect_initialised i s hinit⟩

theorem execTwo_completes {s : State} (i j : Instr) (hinit : s.initialised = true) :
    ∃ t, execTwo i j s = .next t ∧ t.initialised = true :=
  ⟨_, execTwo_of_initialised i j hinit, effects_initialised [i, j] hinit⟩

/-- Settles O46: each input of an existing device completes, but for the two that the hypotheses exclude. -/
theorem stepCompletesWithinTheContract : Obligations.StepCompletesWithinTheContract := by
  intro s hinit hedge hconstructed
  cases hinputs : s.inputs with
  | nil => exact ⟨_, step_of_no_input hinputs, hinit⟩
  | cons input rest =>
    cases input with
    | edge v ts now =>
      cases hdecode : decode (.strobes v ts now) with
      | instr i =>
        rw [step_of_edge_instr hinputs hdecode]
        exact exec_completes i hinit
      | idle =>
        rw [step_of_edge hinputs, hdecode]
        exact ⟨_, rfl, hinit⟩
      | coincident now line ts =>
        rw [step_of_edge_coincident hinputs hdecode]
        split <;> exact execTwo_completes _ _ hinit
      | rejected r =>
        obtain ⟨hne3, hne7⟩ := hedge v ts now rest hinputs
        obtain h3 | h7 := both_lines_of_rejected hdecode
        · exact absurd h3 hne3
        · exact absurd h7 hne7
    | read r =>
      rw [step_of_read hinputs]
      exact exec_completes _ hinit
    | slowPoll now edges =>
      rw [step_of_slowPoll hinputs]
      exact exec_completes _ hinit
    | constructionFailed => exact absurd hinputs (hconstructed rest)

/-! ### The poll of a cycle -/

/-- The poll a decoded edge takes on the state: the record it decodes, and its time. -/
def Decoded.pollOf (s : State) : Decoded → Option (DeviceState × Time)
  | .instr (.poll now) => some (s.dev, now)
  | .coincident now line ts => some (s.recordBeside line ts, now)
  | _ => none

/-- The wires of an edge and its decoded events agree on the poll. -/
theorem presentedPoll_of_edge {s : State} {rest : List Input} {v : Strobes} {ts now : Time}
    (h : s.inputs = .edge v ts now :: rest) : s.presentedPoll = Decoded.pollOf s (decode (.strobes v ts now)) := by
  unfold State.presentedPoll decode decodeStrobes
  rw [h]
  dsimp only
  cases v.getLsbD 3 <;> cases v.getLsbD 2 <;> cases v.getLsbD 1 <;> cases v.getLsbD 0 <;> rfl

/-- A poll on the wires needs `poll` without `rst` and without both lines (log entry 3). -/
theorem strobes_of_presentedPoll {s : State} {rest : List Input} {v : Strobes} {ts now : Time} {p : DeviceState × Time}
    (h : s.inputs = .edge v ts now :: rest) (hp : s.presentedPoll = some p) :
    v.getLsbD 2 = true ∧ v.getLsbD 3 = false ∧ v ≠ 0b0111 := by
  unfold State.presentedPoll at hp
  rw [h] at hp
  dsimp only at hp
  split at hp
  case h_4 => cases hp
  all_goals
    refine ⟨‹_›, ‹_›, ?_⟩
    rintro rfl
    contradiction

/-- An answer that is the Boolean of the poll `p`, and none where there is no poll. -/
def ReturnsPoll (p : Option (DeviceState × Time)) (r : Ret) : Prop :=
  match p with
  | none => ∀ ok, r ≠ .poll ok
  | some (d, now) => r = .poll (frameDecode d now).1.isSuccess

/-- What an operation's strobe vector returns. -/
theorem effect_returnsPoll_of_edge {v : Strobes} {ts now : Time} {i : Instr} (h : decode (.strobes v ts now) = .instr i) {s s' : State}
    (hdev : s'.dev = s.dev) : ReturnsPoll (Decoded.pollOf s (.instr i)) (effect i s').ret := by
  unfold decode decodeStrobes at h
  dsimp only at h
  split at h <;> cases h
  case h_5.refl =>
    rw [Decoded.pollOf, ← hdev]
    exact rfl
  all_goals exact nofun

/-- What an edge with both events returns. -/
theorem execTwo_returnsPoll {s t : State} {rest : List Input} {now ts : Time} {line : Line}
    (h : (if Config.pollFirst s.draws then execTwo (.poll now) (pulseOn line ts) { s with inputs := rest, draws := s.draws + 1 }
      else execTwo (pulseOn line ts) (.poll now) { s with inputs := rest, draws := s.draws + 1 }) = .next t) :
    ReturnsPoll (some (s.recordBeside line ts, now)) t.ret := by
  unfold State.recordBeside
  split at h
  · have hinit := execTwo_next ⟨now, line, ts, .inl ⟨rfl, rfl⟩⟩ h
    cases (execTwo_of_initialised _ _ hinit).symm.trans h
    rw [if_pos ‹_›]
    exact rfl
  · have hinit := execTwo_next ⟨now, line, ts, .inr ⟨rfl, rfl⟩⟩ h
    cases (execTwo_of_initialised _ _ hinit).symm.trans h
    rw [if_neg ‹_›, effect_pulseOn]
    exact rfl

/-- A step returns the Boolean of the poll its cycle presents, and no other (10_state.md R31, 30_encoding.md R91). -/
theorem step_returnsPoll {s t : State} (h : step s = .next t) : ReturnsPoll s.presentedPoll t.ret := by
  cases hinputs : s.inputs with
  | nil =>
    rw [step_of_no_input hinputs] at h
    cases h
    simp only [State.presentedPoll, hinputs]
    exact nofun
  | cons input rest =>
    cases input with
    | edge v ts now =>
      rw [presentedPoll_of_edge hinputs]
      cases hdecode : decode (.strobes v ts now) with
      | instr i =>
        rw [step_of_edge_instr hinputs hdecode] at h
        obtain ⟨rfl, -⟩ := exec_next h
        exact effect_returnsPoll_of_edge hdecode rfl
      | idle =>
        rw [step_of_edge hinputs, hdecode] at h
        cases h
        exact nofun
      | coincident now line ts =>
        rw [step_of_edge_coincident hinputs hdecode] at h
        exact execTwo_returnsPoll h
      | rejected r =>
        rw [step_of_edge hinputs, hdecode] at h
        cases r
        cases h
    | read r =>
      simp only [State.presentedPoll, hinputs]
      rw [step_of_read hinputs] at h
      obtain ⟨rfl, -⟩ := exec_next h
      cases r <;> exact nofun
    | slowPoll now edges =>
      simp only [State.presentedPoll, hinputs]
      rw [step_of_slowPoll hinputs] at h
      obtain ⟨rfl, -⟩ := exec_next h
      exact rfl
    | constructionFailed =>
      rw [step_of_constructionFailed hinputs] at h
      cases h

/-! ### The ports -/

theorem poll_ok_of_no_poll {s : State} (h : s.presentedPoll = none) : s.ports.poll_ok = false := by
  simp only [State.ports, h]

theorem poll_ok_of_poll {s : State} {d : DeviceState} {now : Time} (h : s.presentedPoll = some (d, now)) :
    s.ports.poll_ok = (frameDecode d now).1.isSuccess := by
  simp only [State.ports, h]

/-- `poll_ok` says true exactly when the answer of the cycle's poll does. -/
theorem poll_ok_iff_of_returnsPoll {s : State} {r : Ret} (h : ReturnsPoll s.presentedPoll r) :
    s.ports.poll_ok = true ↔ r = .poll true := by
  cases hpoll : s.presentedPoll with
  | none =>
    rw [hpoll] at h
    rw [poll_ok_of_no_poll hpoll]
    exact iff_of_false nofun (h true)
  | some p =>
    rw [hpoll] at h
    rw [poll_ok_of_poll hpoll, show r = _ from h, Ret.poll.injEq]

/-- A pulse in the poll's edge comes before or after the decode. -/
theorem recordBeside_cases (s : State) (line : Line) (ts : Time) :
    s.recordBeside line ts = s.dev ∨ s.recordBeside line ts = s.dev.onPulse line ts := by
  unfold State.recordBeside
  split
  · exact .inl rfl
  · exact .inr rfl

/-- Settles O52: the poll that each kind of cycle presents, and that the step returns its Boolean. -/
theorem pollOkIsCombinational : Obligations.PollOkIsCombinational := by
  intro s
  refine ⟨fun hinputs => ?none, fun r rest hinputs => ?read, fun v ts now rest hinputs => ⟨fun hno => ?noPoll, fun hv => ?poll,
    fun line hv => ?both⟩, ⟨rfl, rfl⟩, fun t hstep => poll_ok_iff_of_returnsPoll (step_returnsPoll hstep)⟩
  case none => exact poll_ok_of_no_poll (by simp only [State.presentedPoll, hinputs])
  case read => exact poll_ok_of_no_poll (by simp only [State.presentedPoll, hinputs])
  case noPoll =>
    apply poll_ok_of_no_poll
    by_contra hne
    obtain ⟨p, hp⟩ := Option.ne_none_iff_exists'.1 hne
    obtain ⟨hpoll, hrst, hlines⟩ := strobes_of_presentedPoll hinputs hp
    obtain h | h | h := hno
    · rw [hpoll] at h; cases h
    · rw [hrst] at h; cases h
    · exact hlines h
  case poll =>
    subst hv
    exact poll_ok_of_poll (presentedPoll_of_edge hinputs)
  case both =>
    subst hv
    have hp := presentedPoll_of_edge hinputs
    rw [decode_poll_and_strobesOf] at hp
    rw [poll_ok_of_poll hp]
    exact (recordBeside_cases s line ts).imp (fun h => by rw [h]) (fun h => by rw [h])

/-- The wires say `11` for Success alone (30_encoding.md R93). -/
theorem wire_eq_success_iff (r : DecodeResult) : r.wire = 0b11 ↔ r.isSuccess = true := by
  cases r <;> simp [DecodeResult.wire, DecodeResult.isSuccess]

/-- Settles O24: in a POLL's cycle the port and the step's answer are the decode's Boolean, which is the encoding `11`. -/
theorem resultEncodingAndPollOk : Obligations.ResultEncodingAndPollOk := by
  refine ⟨rfl, rfl, rfl, fun _ _ => rfl, fun ts now rest s hinit hinputs => ?_⟩
  obtain ⟨t, ht, -, -, -, hret⟩ := exec_with_inputs (.poll now) rest hinit
  rw [poll_ok_of_poll (presentedPoll_of_edge hinputs), wire_eq_success_iff]
  refine ⟨Iff.rfl, t, (step_of_edge_instr hinputs rfl).trans ht, ?_⟩
  rw [hret]
  exact iff_of_eq (Ret.poll.injEq _ _)

/-! ### No answer is latched -/

/-- No event reads the last answer. -/
theorem exec_ret (i : Instr) (s : State) (r : Ret) : exec i { s with ret := r } = exec i s := by cases i <;> rfl

theorem execTwo_ret (i j : Instr) (s : State) (r : Ret) : execTwo i j { s with ret := r } = execTwo i j s := by
  rw [execTwo, exec_ret]
  rfl

theorem fetchDecoded_ret (d : Decoded) (s : State) (r : Ret) :
    runFetched (fetchDecoded d { s with ret := r }) = runFetched (fetchDecoded d s) := by
  cases d with
  | instr i => exact exec_ret i s r
  | idle => rfl
  | coincident now line ts =>
    rw [fetchDecoded, fetchDecoded, serialise, serialise]
    split <;> exact execTwo_ret _ _ { s with draws := s.draws + 1 } r
  | rejected reason => cases reason; rfl

/-- Nor does a step. -/
theorem step_ret (s : State) (r : Ret) : step { s with ret := r } = step s := by
  obtain ⟨inputs, hinputs⟩ : ∃ inputs, s.inputs = inputs := ⟨_, rfl⟩
  cases inputs with
  | nil => exact (step_of_no_input (s := { s with ret := r }) hinputs).trans (step_of_no_input hinputs).symm
  | cons input rest =>
    cases input with
    | edge v ts now =>
      exact (step_of_edge (s := { s with ret := r }) hinputs).trans
        ((fetchDecoded_ret _ { s with inputs := rest } r).trans (step_of_edge hinputs).symm)
    | read a =>
      exact (step_of_read (s := { s with ret := r }) hinputs).trans
        ((exec_ret _ { s with inputs := rest } r).trans (step_of_read hinputs).symm)
    | slowPoll now edges =>
      exact (step_of_slowPoll (s := { s with ret := r }) hinputs).trans
        ((exec_ret _ { s with inputs := deferredEdges edges ++ rest } r).trans (step_of_slowPoll hinputs).symm)
    | constructionFailed =>
      exact (step_of_constructionFailed (s := { s with ret := r }) hinputs).trans (step_of_constructionFailed hinputs).symm

/-- Settles O53: a step that returns a poll's Boolean took the poll its wires present, and the last answer is read nowhere. -/
theorem pollResultIsNotLatched : Obligations.PollResultIsNotLatched := by
  refine ⟨fun s t ok hstep hret => ?_, fun s r => ⟨step_ret s r, rfl⟩⟩
  have hreturns := step_returnsPoll hstep
  cases hpoll : s.presentedPoll with
  | none =>
    rw [hpoll] at hreturns
    exact absurd hret (hreturns ok)
  | some p =>
    cases hinputs : s.inputs with
    | nil => simp [State.presentedPoll, hinputs] at hpoll
    | cons input rest =>
      cases input with
      | edge v ts now =>
        obtain ⟨hv, hrst, -⟩ := strobes_of_presentedPoll hinputs hpoll
        exact .inl ⟨v, ts, now, rest, rfl, hv, hrst⟩
      | slowPoll now edges => exact .inr ⟨now, edges, rest, rfl⟩
      | read a => simp [State.presentedPoll, hinputs] at hpoll
      | constructionFailed => simp [State.presentedPoll, hinputs] at hpoll

end Sys2Proof.Machine
end
